-- ==== Sys2Proof/Word.lean ====
section
/-! DEFINITION. The word types of CORE: a byte, the 128-bit command word (R59) and the 128-bit response word (R64).
Bits are numbered with 0 least significant (R9). -/
namespace Sys2Proof

/-- A byte of a header, of a payload or of the sink's output stream (R31). -/
abbrev Byte := BitVec 8

/-- The command word CMD (R59). -/
abbrev CmdWord := BitVec 128

/-- The response word RSP (R64). -/
abbrev RspWord := BitVec 128

end Sys2Proof
end

