-- ==== Sys2Proof/Machine/Params.lean ====
section
/-! DEFINITION. The parameters that the source fixes (R7), under the spec's names. -/
namespace Sys2Proof.Machine

/-- `LEN_MAX`, the largest encodable length (R7). -/
abbrev lenMax : Int := 2 ^ 63 - 1

/-- `T7_MAX`, the largest literal length (R7). -/
abbrev t7Max : Int := 125

/-- `T16_MAX`, the largest length of the 16-bit tier (R7). -/
abbrev t16Max : Int := 65535

/-- `LC_EXT16` (R7, R52). -/
abbrev lcExt16 : BitVec 7 := 126#7

/-- `LC_EXT64` (R7, R52). -/
abbrev lcExt64 : BitVec 7 := 127#7

/-- `KEY_BYTES`, the mask key's size (R7). -/
abbrev keyBytes : Nat := 4

/-- `HDR_MIN` (R7). -/
abbrev hdrMin : Nat := 2

/-- `HDR_MAX`, which is also the capacity of HBUF (R7, R23). -/
abbrev hdrMax : Nat := 14

end Sys2Proof.Machine
end

