-- ==== Sys2Proof/Config.lean ====
section
/-! DEFINITION. What the spec leaves to the environment (R8), and the one free value of the machine.
`SinkModel` is no constant: its draws (what the sink answers, when, and how much of a failed call reached OUT) are input
data of `State.agenda`. `N_INST` and the sink assignment are the argument `Wiring` of `State.system`. The values that the
source fixes (R7) stand in `Machine/Params.lean`. -/
namespace Sys2Proof

/-- A type that can stand for `SinkError`: any type at all with a value, whose values can be compared and written out,
which is what a state that holds them needs (log entry 1). The values given here serve only to show that there is such
a type. -/
structure Config.FailureType : Type 1 where
  carrier : Type := Unit
  eq      : DecidableEq carrier := by infer_instance
  repr    : Repr carrier := by infer_instance
  value   : carrier := by exact ()
  deriving Inhabited

/-- The type parameter `SinkError` (R8, D25, I4): OPEN, so it has no body, and nothing can be proved of the type or of
how many values it has. -/
opaque Config.sinkErrors : Config.FailureType

/-- A value of the type `T`. -/
structure SinkErrorOf (T : Config.FailureType) [DecidableEq T.carrier] [Repr T.carrier] where
  value : T.carrier
  deriving DecidableEq, Repr

/-- `SinkError`, the type of the sink's failure value (R8, R64): the values of the type parameter. -/
abbrev SinkError : Type := @SinkErrorOf Config.sinkErrors Config.sinkErrors.eq Config.sinkErrors.repr

/-- A failure value, which one is open. -/
def Config.someError : SinkError :=
  @SinkErrorOf.mk Config.sinkErrors Config.sinkErrors.eq Config.sinkErrors.repr Config.sinkErrors.value

/-- `PAYLOAD_MAX`, the longest byte sequence the payload port carries (R8, R63, D23): OPEN, so it has no body.
CORE itself has no limit; only `Machine.PortsFit` speaks of it. -/
opaque Config.payloadMax : Nat

/-- FREE VALUE. What cell `offset` of HBUF holds when the `draw`-th current command is created: the spec says that it is
unspecified and never observable (R23, R28, R82; 91 N13). It has no body, so nothing can rest on its value. -/
opaque Config.staleByte : Nat → Nat → Byte

/-- The sink assignment of a system (R8 `N_INST`, R106, D20): one entry for every instance, the number of the sink that
serves it, or none where no sink is attached (R113: SIZE and ENCODE need none). Two equal entries share a sink. -/
abbrev Config.Wiring := List (Option Nat)

end Sys2Proof
end

