-- ==== Sys2Proof/Syntax.lean ====
section
/-! DEFINITION. The commands of CORE as syntax: one constructor for each row of spec/opcode_table.json (R61, R67), with
the fields of R69's textual form. -/
namespace Sys2Proof

/-- The operation selector OP (R15, R61): all four values of the 2-bit field are defined. -/
inductive Op where
  | size
  | encode
  | writeHeader
  | writeFrame
  deriving DecidableEq, Repr

/-- The mask key, `KEY[0]` to `KEY[3]` (R16). -/
structure Key where
  k0 : Byte
  k1 : Byte
  k2 : Byte
  k3 : Byte
  deriving DecidableEq, Repr

/-- The header description as the requester gives it (R2, R16). RSV and OPC are integers here, as in the source's
description; R60 and R119 say what a model with integer fields does with a value wider than the field. LEN is any
64-bit pattern, read as `sint64` (R21). -/
structure Header where
  fin    : Bool
  rsv    : Nat
  opc    : Nat
  masked : Bool
  key    : Key
  len    : BitVec 64
  deriving DecidableEq, Repr

/-- The four commands (R61). Only WRITE_FRAME carries a payload (R63, R69). -/
inductive Instr where
  /-- SIZE, R72. -/
  | size (h : Header)
  /-- ENCODE, R84. -/
  | encode (h : Header)
  /-- WRITE_HEADER, R85 and R86. -/
  | writeHeader (h : Header)
  /-- WRITE_FRAME, R87 to R89. -/
  | writeFrame (h : Header) (payload : List Byte)
  deriving DecidableEq, Repr

/-- The operation selector of a command (R61). -/
def Instr.op : Instr → Op
  | .size _ => .size
  | .encode _ => .encode
  | .writeHeader _ => .writeHeader
  | .writeFrame _ _ => .writeFrame

/-- The header description of a command (R72: SIZE latches it too). -/
def Instr.header : Instr → Header
  | .size h => h
  | .encode h => h
  | .writeHeader h => h
  | .writeFrame h _ => h

/-- What the requester puts on the payload port beside the command word: for the operations that ignore the port (R63)
the empty sequence. -/
def Instr.payload : Instr → List Byte
  | .size _ => []
  | .encode _ => []
  | .writeHeader _ => []
  | .writeFrame _ p => p

end Sys2Proof
end

