-- ==== Sys2Proof/Machine/State.lean ====
section
/-! DEFINITION. Every piece of state the spec gives the system that holds CORE: the instances with their transient
current command (R14 to R23, R28), the sinks with OUT and WLOG (R26), what the requesters hold at the command and payload
ports (R59, R63, R118), and the event history (R30). Which agent moves next, and what it does, is plain data:
`State.agenda`. -/
namespace Sys2Proof.Machine

/-- PHASE (R14). The value 3 is never held and is left out of the type, as R14 allows. -/
inductive Phase where
  /-- 0: no command in progress, the command port is ready. -/
  | idle
  /-- 1: a header write call is issued and not yet answered. -/
  | waitHdr
  /-- 2: a payload write call is issued and not yet answered. -/
  | waitPay
  deriving DecidableEq, Repr

/-- DESC, the descriptor register (R16), with the widths R16 gives. -/
structure Desc where
  fin    : Bool
  rsv    : BitVec 3
  opc    : BitVec 4
  masked : Bool
  key    : Key
  len    : BitVec 64
  deriving DecidableEq, Repr

/-- HBUF, exactly 14 byte cells (R23). -/
abbrev HBuf := Vector Byte 14

/-- The current command: the transient registers together, as R28 asks. -/
structure Cur where
  /-- OP (R15). -/
  op : Op
  /-- DESC (R16). -/
  desc : Desc
  /-- PAYLOAD (R22): none where the operation does not write it (R63). -/
  payload : Option (List Byte)
  /-- HBUF (R23). -/
  hbuf : HBuf
  /-- HLEN, 0 to 14 (R23). -/
  hlen : Fin 15
  /-- The model's own: the place in the sink's WLOG of the write call whose answer this command waits for, so that the
  late answer to a call that a reset abandoned is told from it (R111). DESIGN CHOICE (log entry 11). -/
  call : Nat
  deriving DecidableEq, Repr

/-- What CORE sees of a sink's answer to a write call (R11, R35). -/
inductive Answer where
  | ok
  | err (e : SinkError)
  deriving DecidableEq, Repr

/-- What a sink does with a write call: its answer, and for `Err` also how many leading bytes of the call it appended to
OUT, which the spec leaves open (R8 SinkModel, R38, D11, I2) and CORE never sees. DESIGN CHOICE (log entry 3). -/
inductive Reply where
  | ok
  | err (e : SinkError) (kept : Nat)
  deriving DecidableEq, Repr

/-- Who issued a write call (R26): an instance of CORE, or another writer that shares the sink (R44). -/
inductive Writer where
  | core (k : Nat)
  | other
  deriving DecidableEq, Repr

/-- An entry of WLOG (R26): the issuer, the bytes, and the answer once the sink has given it. -/
structure Call where
  writer : Writer
  bytes  : List Byte
  answer : Option Answer
  deriving DecidableEq, Repr

/-- A sink (R26): OUT, the bytes it has delivered, and WLOG, the calls it has received, oldest first. -/
structure Sink where
  out  : List Byte
  wlog : List Call
  deriving DecidableEq, Repr

/-- STATUS (R25, R65). Code 3 is never produced and is left out of the type, as R65 allows. -/
inductive Status where
  | ok
  | invalidLength
  | sinkFailure
  deriving DecidableEq, Repr

/-- A response (R24, R64). -/
structure Response where
  status : Status
  rsize  : BitVec 4
  rhdr   : HBuf
  rerr   : Option SinkError
  deriving DecidableEq, Repr

/-- What a requester presents: a command word on the command port with a byte sequence on the payload port (R59, R63). -/
structure Request where
  cmd     : CmdWord
  payload : List Byte
  deriving DecidableEq, Repr

/-- The events that a run shows (R30). -/
inductive Event where
  | accept  (k : Nat) (cmd : CmdWord) (payload : List Byte)
  | issue   (k : Nat) (bytes : List Byte)
  | answer  (k : Nat) (r : Answer)
  | respond (k : Nat) (r : Response)
  deriving DecidableEq, Repr

/-- One instance of CORE, with the sink that serves it and what its requester holds at its ports. -/
structure Inst where
  /-- PHASE (R14). -/
  phase : Phase
  /-- The current command, absent exactly when PHASE = IDLE (R28). -/
  cur : Option Cur
  /-- The sink that serves this instance, fixed for a run (R8, R113). -/
  sink : Option Nat
  /-- The requester's commands, the one presented at the ports first; it is held there until the instance is IDLE, and
  the instance queues nothing (R118). DEDUCED: reset leaves it (log entry 10). -/
  port : List Request
  deriving DecidableEq, Repr

/-- One atomic step of one agent (R11, D1). -/
inductive Move where
  /-- The requester of instance `k` presents a request, behind those it already holds at the port. -/
  | present (k : Nat) (r : Request)
  /-- Instance `k` accepts the command at its port, if it is IDLE and one is there. -/
  | accept (k : Nat)
  /-- Sink `j` answers the call at place `n` of its WLOG. -/
  | answer (j n : Nat) (r : Reply)
  /-- Instance `k` is reset (R110). -/
  | reset (k : Nat)
  /-- A writer that is no instance of CORE issues a write call to sink `j` (R44). -/
  | otherWrite (j : Nat) (bytes : List Byte)
  deriving DecidableEq, Repr

/-- The system: `insts.length` is N_INST (R8). -/
structure State where
  insts  : List Inst
  sinks  : List Sink
  /-- The moves to come, the next one first: the environment's free choices as input data (R11, R44). DESIGN CHOICE
  (log entry 7). -/
  agenda : List Move
  /-- The model's own: the instance that accepts the command being executed. -/
  turn   : Nat
  /-- The event history (R30), oldest first. -/
  trace  : List Event
  /-- The model's own: how many current commands were created, the argument of the free value `Config.staleByte`
  (log entry 5). -/
  draws  : Nat
  deriving DecidableEq, Repr

/-- A move or an acceptance that names something the system does not have. CORE itself has no fault: its two errors are
responses (R93, R98). Each is raised by the agenda's data alone, never by a command, and stops the machine: safe (log entry 8). -/
inductive Fault where
  /-- Raised by `exec` and by the moves present, accept and reset where the system has no such instance (R106). Safe. -/
  | noInstance
  /-- Raised by the moves answer and otherWrite where the system has no such sink (R26). Safe. -/
  | noSink
  /-- Raised by the move answer where the sink holds no unanswered call at that place: a write call has ONE answer
  (R35). Safe. -/
  | noCall
  deriving DecidableEq, Repr

/-- Why a command has no meaning. -/
inductive Refusal where
  /-- An arm of `exec` without a meaning; none is left. Safe. -/
  | notModelled (mnemonic : String)
  /-- Raised at acceptance for an integer RSV above 7, which R119 tells a model with integer fields to refuse. No command
  word carries such a value, so `step` never answers it. Safe. -/
  | rsvOutOfRange
  deriving DecidableEq, Repr

/-- An instance after reset (R29, R110): PHASE = IDLE, no current command, nothing presented. -/
def Inst.fresh (sink : Option Nat) : Inst := { phase := .idle, cur := none, sink := sink, port := [] }

/-- A fresh sink: OUT and WLOG empty (95_test_vectors.md section 3). -/
def Sink.fresh : Sink := { out := [], wlog := [] }

/-- A system of `nSinks` fresh sinks and one reset instance for each entry of the wiring (R8, R106, R112, R113). -/
def State.system (nSinks : Nat) (wiring : Config.Wiring) : State :=
  { insts := wiring.map Inst.fresh
    sinks := List.replicate nSinks Sink.fresh
    agenda := []
    turn := 0
    trace := []
    draws := 0 }

/-- The machine right after reset (R29, R110, R112): the smallest system, one instance served by one fresh sink.
DESIGN CHOICE (log entry 2): N_INST and the sink assignment are OPEN (R8), and statements range over every system. -/
def State.reset : State := State.system 1 [some 0]

end Sys2Proof.Machine
end

