-- ==== Sys2Proof/Machine/Operands.lean ====
section
/-! DEFINITION. The operand forms: how a command's fields are latched (R60, R119), the size function (R71), the
variable-length encoder of the length (R78, R79), the two base bytes (R77, R80), HBUF and the header serializer (R82),
and the wire format read back (R57). -/
namespace Sys2Proof.Machine

/-- R60: DESC from a command's header description. R119: OPC is taken modulo 16, and an RSV above 7 gives none. -/
def latchDesc (h : Header) : Option Desc :=
  if h.rsv ≤ 7 then
    some { fin := h.fin, rsv := BitVec.ofNat 3 h.rsv, opc := BitVec.ofNat 4 h.opc
           masked := h.masked, key := h.key, len := h.len }
  else none

/-- R21: `L = sint64(DESC.LEN)`. -/
def payloadLength (d : Desc) : Int := d.len.toInt

/-- R71: `HeaderSize(d)`, none where it says Invalid. -/
def headerSize (d : Desc) : Option Nat :=
  if payloadLength d < 0 then none
  else
    let base := if payloadLength d ≤ t7Max then 2 else if payloadLength d ≤ t16Max then 4 else 10
    some (base + if d.masked then keyBytes else 0)

/-- The tiers of R78. -/
inductive Tier where
  | invalid
  | t7
  | t16
  | t64
  deriving DecidableEq, Repr

/-- R78: `LengthTier(L)`. -/
def lengthTier (l : Int) : Tier :=
  if l < 0 then .invalid
  else if l ≤ t7Max then .t7
  else if l ≤ t16Max then .t16
  else .t64

/-- 00_scope.md, notation: `be_bytes_N(u)`, whose byte `k` is `u[8(N-1-k)+7 : 8(N-1-k)]` (R32). -/
def beBytes (n u : Nat) : List Byte :=
  (List.range n).map fun k => BitVec.ofNat 8 (u >>> (8 * (n - 1 - k)))

/-- R79: `EncodeLength(L)`, the length-control value and the extended-length bytes. It is never applied to an invalid
length (R79), where this function's answer is used by nothing. -/
def encodeLength (l : Int) : BitVec 7 × List Byte :=
  match lengthTier l with
  | .t7 => (BitVec.ofInt 7 l, [])
  | .t16 => (lcExt16, beBytes 2 l.toNat)
  | .t64 => (lcExt64, beBytes 8 l.toNat)
  | .invalid => (0#7, [])

/-- A 1-bit field as a byte (R77, R80). -/
def bitByte (b : Bool) : Byte := (BitVec.ofBool b).setWidth 8

/-- R77: `PackByte0(d)`. -/
def packByte0 (d : Desc) : Byte :=
  (bitByte d.fin <<< 7) ||| (d.rsv.setWidth 8 <<< 4) ||| d.opc.setWidth 8

/-- R80: `PackByte1(d, LC)`. -/
def packByte1 (d : Desc) (lc : BitVec 7) : Byte :=
  (bitByte d.masked <<< 7) ||| lc.setWidth 8

/-- R33: the key bytes in array order. -/
def keyList (k : Key) : List Byte := [k.k0, k.k1, k.k2, k.k3]

/-- `HBUF[off] <- b0; HBUF[off+1] <- b1; …` (R82). A write past the last cell has nowhere to go; R76 says that none
occurs. -/
def writeCells (buf : HBuf) (off : Nat) : List Byte → HBuf
  | [] => buf
  | b :: bs => writeCells (buf.setIfInBounds off b) (off + 1) bs

/-- `HBUF[0..HLEN)` (R82). -/
def headerBytes (buf : HBuf) (hlen : Fin 15) : List Byte := buf.toList.take hlen.val

/-- R82: `EncodeHeader(d)`, writing into the buffer it is given: HBUF and HLEN afterwards, or none for InvalidLength. -/
def encodeHeader (d : Desc) (buf : HBuf) : Option (HBuf × Fin 15) :=
  if lengthTier (payloadLength d) = .invalid then none
  else
    let (lc, ext) := encodeLength (payloadLength d)
    let buf := writeCells buf 0 [packByte0 d]
    let buf := writeCells buf 1 [packByte1 d lc]
    let buf := writeCells buf 2 ext
    let i := 2 + ext.length
    if d.masked then
      some (writeCells buf i (keyList d.key), Fin.ofNat 15 (i + keyBytes))
    else
      some (buf, Fin.ofNat 15 i)

/-- HBUF when a current command is created: unspecified (R23), so free in every cell. -/
def staleBuf (draw : Nat) : HBuf := Vector.ofFn fun i => Config.staleByte draw i.val

/-- R57: the header length as a reader of the wire finds it from bytes 0 and 1 alone; it reads nothing of byte 0. -/
def wireHeaderSize (b1 : Byte) : Nat :=
  let lc := (b1.extractLsb' 0 7).toNat
  let ext := if lc ≤ 125 then 0 else if lc = 126 then 2 else 8
  2 + ext + if b1.getLsbD 7 then 4 else 0

end Sys2Proof.Machine
end

