-- ==== Sys2Proof/Machine/Flags.lean ====
section
/-! DEFINITION. STATUS, the only condition code (R25, R65), the two error kinds (R93), the responses that commands give
(R64, R66), and the codes of PHASE and of the ready indication (R14). -/
namespace Sys2Proof.Machine

/-- R65: the STATUS codes. -/
def statusCode : Status → BitVec 2
  | .ok => 0#2
  | .invalidLength => 1#2
  | .sinkFailure => 2#2

/-- R14, D30: the value of the PHASE register. -/
def phaseCode : Phase → BitVec 2
  | .idle => 0#2
  | .waitHdr => 1#2
  | .waitPay => 2#2

/-- R14, R118: the command port's ready indication, asserted exactly when PHASE = IDLE. -/
def Inst.ready (c : Inst) : Bool := decide (c.phase = .idle)

/-- The two error kinds (R93). -/
inductive ErrorKind where
  | invalidLength
  | sinkFailure (e : SinkError)
  deriving DecidableEq, Repr

/-- RHDR from header bytes: the bytes, then 0 up to 14 (R66, R84, D9). -/
def padHeader (bs : List Byte) : HBuf := Vector.ofFn fun i => bs.getD i.val 0#8

/-- R66: SIZE with STATUS = OK. -/
def sizeResponse (n : Nat) : Response :=
  { status := .ok, rsize := BitVec.ofNat 4 n, rhdr := padHeader [], rerr := none }

/-- R66: ENCODE with STATUS = OK. -/
def encodeResponse (buf : HBuf) (hlen : Fin 15) : Response :=
  { status := .ok, rsize := BitVec.ofNat 4 hlen.val, rhdr := padHeader (headerBytes buf hlen), rerr := none }

/-- R66: WRITE_HEADER and WRITE_FRAME with STATUS = OK, success with no value. -/
def writtenResponse : Response :=
  { status := .ok, rsize := 0#4, rhdr := padHeader [], rerr := none }

/-- R66, R93: the response of a command that ends with an error. -/
def errorResponse : ErrorKind → Response
  | .invalidLength => { status := .invalidLength, rsize := 0#4, rhdr := padHeader [], rerr := none }
  | .sinkFailure e => { status := .sinkFailure, rsize := 0#4, rhdr := padHeader [], rerr := some e }

/-- R64: RHDR as 112 bits, `RHDR[0]` the most significant byte. -/
def rhdrBits (b : HBuf) : BitVec 112 :=
  b.toList.foldl (fun acc x => (acc <<< 8) ||| x.setWidth 112) 0#112

/-- R64: the response word RSP. RERR is a side value, outside the word. -/
def responseWord (r : Response) : RspWord :=
  statusCode r.status ++ r.rsize ++ 0#10 ++ rhdrBits r.rhdr

end Sys2Proof.Machine
end

