-- ==== Sys2Proof/Machine/Ops.lean ====
section
/-! DEFINITION. The shared operations over the state: acceptance (R12, R118), the write primitive (R35), the end of a
command (R24, R28), taking an error, which is this block's trap entry (R98), the sink's side of an answer (R26, R38) and
reset (R110). There is no return from trap (R99): after `raiseError` the instance is IDLE as after a success. -/
namespace Sys2Proof.Machine

abbrev Result := Host.Outcome State Fault Refusal

/-- Replaces instance `k`. -/
def State.setInst (s : State) (k : Nat) (c : Inst) : State := { s with insts := s.insts.set k c }

/-- Replaces sink `j`. -/
def State.setSink (s : State) (j : Nat) (q : Sink) : State := { s with sinks := s.sinks.set j q }

/-- Appends an event to the history (R30). -/
def State.emit (s : State) (e : Event) : State := { s with trace := s.trace ++ [e] }

/-- The current command is discarded and PHASE becomes IDLE (R28, R110). -/
def Inst.toIdle (c : Inst) : Inst := { c with phase := .idle, cur := none }

/-- R60, R118: acceptance, the beginning of every command. Only an IDLE instance accepts; a command presented to a busy
one is held, and nothing changes. `run` gets the accepting instance and the latched descriptor. -/
def accepting (s : State) (h : Header) (run : Inst → Desc → Result) : Result :=
  match s.insts[s.turn]? with
  | none => .fault .noInstance
  | some c =>
    if c.phase = .idle then
      match latchDesc h with
      | none => .refused .rsvOutOfRange
      | some d => run c d
    else .next s

/-- R24, R28: the command of instance `k` ends with a response; the current command is discarded and PHASE is IDLE. -/
def finish (k : Nat) (c : Inst) (r : Response) (s : State) : State :=
  (s.setInst k c.toIdle).emit (.respond k r)

/-- R98: TAKING AN ERROR. The command ends where the error occurs with a response that carries the error's STATUS (and
RERR); nothing is saved or vectored, and no mode changes. -/
def raiseError (k : Nat) (c : Inst) (e : ErrorKind) (s : State) : State := finish k c (errorResponse e) s

/-- The place that the next write call of instance `c` gets in the WLOG of its sink. -/
def nextCall (c : Inst) (s : State) : Nat :=
  match c.sink with
  | none => 0
  | some j => match s.sinks[j]? with
    | none => 0
    | some q => q.wlog.length

/-- A sink receives a write call (R26, R35). -/
def receive (j : Nat) (call : Call) (s : State) : State :=
  match s.sinks[j]? with
  | none => s
  | some q => s.setSink j { q with wlog := q.wlog ++ [call] }

/-- R35: `SinkWrite(bytes)` by instance `k`: the Issue event, carrying the bytes by value (R40), and the call in the WLOG
of the sink that serves the instance. Where no sink is attached nothing receives the call and nothing ever answers: DEDUCED
(log entry 9). -/
def sinkWrite (k : Nat) (c : Inst) (bytes : List Byte) (s : State) : State :=
  match c.sink with
  | none => s.emit (.issue k bytes)
  | some j => receive j { writer := .core k, bytes := bytes, answer := none } (s.emit (.issue k bytes))

/-- R85, R87: the acceptance step that WRITE_HEADER and WRITE_FRAME share: encode the header, then either InvalidLength
with no write call, or one header write call and PHASE = WAIT_HDR. -/
def startWrite (op : Op) (d : Desc) (payload : Option (List Byte)) (c : Inst) (s : State) : State :=
  match encodeHeader d (staleBuf s.draws) with
  | none => raiseError s.turn c .invalidLength s
  | some (buf, hlen) =>
    let cur : Cur :=
      { op := op, desc := d, payload := payload, hbuf := buf, hlen := hlen, call := nextCall c s }
    sinkWrite s.turn c (headerBytes buf hlen)
      { s.setInst s.turn { c with phase := .waitHdr, cur := some cur } with draws := s.draws + 1 }

/-- R86, R89: the last answer of a writing command: OK, or SinkFailure with the sink's value verbatim (R95). -/
def finishWrite (k : Nat) (c : Inst) (r : Answer) (s : State) : State :=
  match r with
  | .ok => finish k c writtenResponse s
  | .err e => raiseError k c (.sinkFailure e) s

/-- What CORE sees of a reply. -/
def Reply.seen : Reply → Answer
  | .ok => .ok
  | .err e _ => .err e

/-- R38: what a write call adds to OUT: all of it on `Ok`; on `Err` the prefix that the sink model draws (D11). -/
def Reply.delivered (r : Reply) (bytes : List Byte) : List Byte :=
  match r with
  | .ok => bytes
  | .err _ kept => bytes.take kept

/-- R26: the sink's side of an answer: OUT grows, and the WLOG entry gets the answer. DEDUCED: OUT changes only here
(log entry 4). -/
def Sink.settle (q : Sink) (n : Nat) (call : Call) (r : Reply) : Sink :=
  { out := q.out ++ r.delivered call.bytes, wlog := q.wlog.set n { call with answer := some r.seen } }

/-- Whether instance `c` waits for the answer to the call at place `n` of sink `j`. The answer to any other call of its,
one that a reset abandoned, it ignores (R111). -/
def waitsFor (c : Inst) (j n : Nat) : Bool :=
  decide (c.sink = some j) && decide (c.phase ≠ .idle) && decide (c.cur.map Cur.call = some n)

/-- R110: reset of instance `k`. What the requester holds at the port is the requester's, and the sink is not reset
(R26, R111). -/
def resetInst (k : Nat) (s : State) : Result :=
  match s.insts[k]? with
  | none => .fault .noInstance
  | some c => .next (s.setInst k c.toIdle)

/-- The requester presents a request at the ports of instance `k`, behind those it already holds there (R118). -/
def presentRequest (k : Nat) (r : Request) (s : State) : Result :=
  match s.insts[k]? with
  | none => .fault .noInstance
  | some c => .next (s.setInst k { c with port := c.port ++ [r] })

/-- A writer that is no instance of CORE issues a write call to sink `j` (R44). -/
def otherWrite (j : Nat) (bytes : List Byte) (s : State) : Result :=
  match s.sinks[j]? with
  | none => .fault .noSink
  | some _ => .next (receive j { writer := .other, bytes := bytes, answer := none } s)

end Sys2Proof.Machine
end

