-- ==== Sys2Proof/Machine/FrameWriter.lean ====
section
/-! DEFINITION. WRITE_FRAME (R87 to R92). -/
namespace Sys2Proof.Machine

/-- WRITE_FRAME, acceptance step, R87. The payload is latched as supplied and compared with nothing (R91). -/
def execWriteFrame (h : Header) (payload : List Byte) (s : State) : Result :=
  accepting s h fun c d => .next (startWrite .writeFrame d (some payload) c s)

/-- WRITE_FRAME, header-answer step, R88: a header failure ends the command; after `Ok` the payload is written in a
second call, even an empty one (R92). -/
def answerFrameHeader (k : Nat) (c : Inst) (cur : Cur) (payload : List Byte) (r : Answer) (s : State) : State :=
  match r with
  | .err e => raiseError k c (.sinkFailure e) s
  | .ok =>
    sinkWrite k c payload
      (s.setInst k { c with phase := .waitPay, cur := some { cur with call := nextCall c s } })

/-- WRITE_FRAME, payload-answer step, R89. -/
def answerFramePayload (k : Nat) (c : Inst) (r : Answer) (s : State) : State := finishWrite k c r s

end Sys2Proof.Machine
end

