-- ==== Sys2Proof/Machine/HeaderEncoder.lean ====
section
/-! DEFINITION. ENCODE (R84) and WRITE_HEADER (R85, R86). -/
namespace Sys2Proof.Machine

/-- ENCODE, R84: the header bytes in RHDR and their number in RSIZE, or InvalidLength; one acceptance step, no write
call. HBUF begins unspecified and is discarded in the same step. -/
def execEncode (h : Header) (s : State) : Result :=
  accepting s h fun c d =>
    match encodeHeader d (staleBuf s.draws) with
    | none => .next (raiseError s.turn c .invalidLength s)
    | some (buf, hlen) => .next { finish s.turn c (encodeResponse buf hlen) s with draws := s.draws + 1 }

/-- WRITE_HEADER, acceptance step, R85. PAYLOAD is not written (R22). -/
def execWriteHeader (h : Header) (s : State) : Result :=
  accepting s h fun c d => .next (startWrite .writeHeader d none c s)

/-- WRITE_HEADER, sink-answer step, R86. -/
def answerWriteHeader (k : Nat) (c : Inst) (r : Answer) (s : State) : State := finishWrite k c r s

end Sys2Proof.Machine
end

