-- ==== Sys2Proof/Machine/Size.lean ====
section
/-! DEFINITION. SIZE (R72, R73). -/
namespace Sys2Proof.Machine

/-- SIZE, R72: the header size in RSIZE, or InvalidLength; one acceptance step, no write call (R73). -/
def execSize (h : Header) (s : State) : Result :=
  accepting s h fun c d =>
    match headerSize d with
    | none => .next (raiseError s.turn c .invalidLength s)
    | some n => .next (finish s.turn c (sizeResponse n) s)

end Sys2Proof.Machine
end

