-- ==== Sys2Proof/Machine/Dispatch.lean ====
section
/-! DEFINITION. One arm for each constructor of Instr: the acceptance step of the command at instance `s.turn`. -/
namespace Sys2Proof.Machine

def exec (i : Instr) (s : State) : Host.Outcome State Fault Refusal :=
  match i with
  | .size h => Sys2Proof.Machine.execSize h s
  | .encode h => Sys2Proof.Machine.execEncode h s
  | .writeHeader h => Sys2Proof.Machine.execWriteHeader h s
  | .writeFrame h payload => Sys2Proof.Machine.execWriteFrame h payload s

end Sys2Proof.Machine
end

