-- ==== Sys2Proof/WellFormed.lean ====
section
/-! DEFINITION. Which commands are well formed: those whose integer fields lie in the ranges the requester must keep
(R119): RSV in 0..7 and OPC in 0..15. Every key, every 64-bit length pattern and every payload is well formed (R16,
R20, R21, R63). A command that is not well formed has no command word (D16). -/
namespace Sys2Proof

/-- RSV is a 3-bit value, 0 to 7 (R18, R119). -/
def Header.rsvInRange (h : Header) : Bool := decide (h.rsv ≤ 7)

/-- The requester presents OPC in 0..15 (R19, R119). -/
def Header.opcInRange (h : Header) : Bool := decide (h.opc ≤ 15)

/-- Both ranges of R119. -/
def Header.wellFormed (h : Header) : Bool := h.rsvInRange && h.opcInRange

/-- A command is well formed when its header description is. -/
def Instr.wellFormed (i : Instr) : Bool := i.header.wellFormed

end Sys2Proof
end

