-- ==== Sys2Proof/Decode.lean ====
section
/-! DEFINITION. The command word (R59 to R63, R67): decoder, then encoder, both from the layout table of R59.
No command word is undefined (R68), so `decode` has an answer for every word; a sequence of bytes that is not one
16-byte word is rejected by name. -/
namespace Sys2Proof

/-! ## Decoder -/

/-- R61: the operation that a value of the OP field selects. -/
def opOfCode (c : BitVec 2) : Op :=
  if c = 0#2 then .size
  else if c = 1#2 then .encode
  else if c = 2#2 then .writeHeader
  else .writeFrame

/-- R59: OP is CMD[127:126]. -/
def cmdOp (w : CmdWord) : BitVec 2 := w.extractLsb' 126 2

/-- R59: KEY[0] is CMD[95:88], and so on down to KEY[3], CMD[71:64] (D17). -/
def cmdKey (w : CmdWord) : Key :=
  { k0 := w.extractLsb' 88 8
    k1 := w.extractLsb' 80 8
    k2 := w.extractLsb' 72 8
    k3 := w.extractLsb' 64 8 }

/-- R59, R60: the header description that a command word carries. The RES0 bits are read by nothing (R62). -/
def cmdHeader (w : CmdWord) : Header :=
  { fin := w.getLsbD 119
    rsv := (w.extractLsb' 116 3).toNat
    opc := (w.extractLsb' 112 4).toNat
    masked := w.getLsbD 111
    key := cmdKey w
    len := w.extractLsb' 0 64 }

/-- R61, R63, R67: the command that a command word and the payload port carry. The payload is taken only when OP = 3.
Total: no word is undefined (R68). -/
def decode (w : CmdWord) (payload : List Byte) : Instr :=
  match opOfCode (cmdOp w) with
  | .size => .size (cmdHeader w)
  | .encode => .encode (cmdHeader w)
  | .writeHeader => .writeHeader (cmdHeader w)
  | .writeFrame => .writeFrame (cmdHeader w) payload

/-- Why a sequence of bytes is no command word. -/
inductive DecodeError where
  /-- The sequence does not have the 16 bytes W0 to W15 of R59. -/
  | notSixteenBytes (n : Nat)
  deriving DecidableEq, Repr

/-- R59: the word that bytes W0, W1, … form, most significant byte first. -/
def wordOfBytes (bs : List Byte) : CmdWord :=
  bs.foldl (fun acc b => (acc <<< 8) ||| b.setWidth 128) 0#128

/-- Decoding a command written as bytes W0 to W15 (R59). -/
def decodeBytes (bs payload : List Byte) : Except DecodeError Instr :=
  if bs.length = 16 then .ok (decode (wordOfBytes bs) payload)
  else .error (.notSixteenBytes bs.length)

/-- The row of spec/opcode_table.json that the low `nbits` bits of `w` stand for, with the payload port empty: the table
numbers a command's bits as R59 does, and a command is one word. -/
def decodeTableWord (nbits w : Nat) : Option Instr :=
  some (decode (BitVec.ofNat 128 (w % 2 ^ nbits)) [])

/-! ## Encoder -/

/-- R61: the OP field of an operation. -/
def opCode : Op → BitVec 2
  | .size => 0#2
  | .encode => 1#2
  | .writeHeader => 2#2
  | .writeFrame => 3#2

/-- R59 with RES0 = 0 (R69): the command word of a command. R60 takes OPC modulo 16; an RSV above 7 has no command word
(D16), and `Instr.wellFormed` shuts it out. -/
def encode (i : Instr) : CmdWord :=
  opCode i.op ++ 0#6 ++ BitVec.ofBool i.header.fin ++ BitVec.ofNat 3 i.header.rsv ++ BitVec.ofNat 4 i.header.opc
    ++ BitVec.ofBool i.header.masked ++ 0#15
    ++ i.header.key.k0 ++ i.header.key.k1 ++ i.header.key.k2 ++ i.header.key.k3
    ++ i.header.len

/-- R59: the 16 bytes W0 to W15 of a command word, most significant first. -/
def bytesOfWord (w : CmdWord) : List Byte :=
  (List.range 16).map fun k => w.extractLsb' (8 * (15 - k)) 8

/-- The command word of a command as bytes W0 to W15. -/
def encodeBytes (i : Instr) : List Byte := bytesOfWord (encode i)

end Sys2Proof
end

