-- ==== Sys2Proof/Machine/Fetch.lean ====
section
/-! DEFINITION. Taking a command from the command and payload ports. CORE fetches no instructions (R13, R47): a command
arrives as a value. -/
namespace Sys2Proof.Machine

/-- What instance `k` finds when it looks at its ports. -/
inductive Fetched where
  /-- The system has no such instance. -/
  | absent
  /-- The instance is busy (R118), or no command is presented: nothing is accepted. -/
  | held
  /-- A command is accepted; the state is the one its acceptance step runs in. -/
  | command (i : Instr) (s : State)
  deriving DecidableEq, Repr

/-- The request at the port of instance `k` is taken: the Accept event carries the whole word and what the payload port
holds (R30), and `turn` names the instance. -/
def takeRequest (k : Nat) (c : Inst) (r : Request) (rest : List Request) (s : State) : State :=
  { (s.setInst k { c with port := rest }).emit (.accept k r.cmd r.payload) with turn := k }

/-- R59, R63, R118: an IDLE instance takes the command word and the payload port together. -/
def fetch (k : Nat) (s : State) : Fetched :=
  match s.insts[k]? with
  | none => .absent
  | some c =>
    match c.port with
    | [] => .held
    | r :: rest =>
      if c.ready then .command (decode r.cmd r.payload) (takeRequest k c r rest s)
      else .held

/-- Puts a request first at the port of instance `c`, ready to be accepted: the instance is IDLE. -/
def Inst.presenting (c : Inst) (r : Request) : Inst := { c.toIdle with port := r :: c.port }

end Sys2Proof.Machine
end

