-- ==== Sys2Proof/Machine/SinkAnswer.lean ====
section
/-! DEFINITION. The sink-answer step: the sink settles a write call (R26, R38), and the instance that waits for it goes
on (R86, R88, R89) in the same atomic step (D1). -/
namespace Sys2Proof.Machine

/-- CORE's answer step at instance `k`, chosen by PHASE and OP (R86, R88, R89). The Answer event comes first (R30).
The combinations that no rule enables (no run reaches them) leave the state as it is. -/
def coreAnswer (k : Nat) (c : Inst) (r : Answer) (s : State) : State :=
  match c.phase, c.cur with
  | .waitHdr, some cur =>
    match cur.op, cur.payload with
    | .writeHeader, _ => answerWriteHeader k c r (s.emit (.answer k r))
    | .writeFrame, some payload => answerFrameHeader k c cur payload r (s.emit (.answer k r))
    | .writeFrame, none => s
    | .size, _ => s
    | .encode, _ => s
  | .waitPay, some _ => answerFramePayload k c r (s.emit (.answer k r))
  | .waitHdr, none => s
  | .waitPay, none => s
  | .idle, _ => s

/-- The part of an answer that reaches the issuer: an instance that waits for this very call goes on; for the abandoned
call of an instance (R111), and for another writer's call, CORE takes no step. -/
def deliverAnswer (w : Writer) (j n : Nat) (r : Answer) (s : State) : State :=
  match w with
  | .other => s
  | .core k => match s.insts[k]? with
    | none => s
    | some c => if waitsFor c j n then coreAnswer k c r s else s

/-- Sink `j` answers the call at place `n` of its WLOG. A write call has one answer (R35). -/
def sinkAnswer (j n : Nat) (r : Reply) (s : State) : Result :=
  match s.sinks[j]? with
  | none => .fault .noSink
  | some q => match q.wlog[n]? with
    | none => .fault .noCall
    | some call => match call.answer with
      | some _ => .fault .noCall
      | none => .next (deliverAnswer call.writer j n r.seen (s.setSink j (q.settle n call r)))

end Sys2Proof.Machine
end

