-- ==== Sys2Proof/Machine/Step.lean ====
section
/-! DEFINITION. One step of the system: the agent named by the next move of `State.agenda` takes one atomic step (R11,
D1). With no move to come every agent waits, for ever if need be (R109, R112): the run goes on and nothing changes
(DESIGN CHOICE, log entry 7). -/
namespace Sys2Proof.Machine

/-- The acceptance step of instance `k` (R12, R118), `exec` of the command at its port. -/
def stepAccept (k : Nat) (s : State) : Host.Outcome State Fault Refusal :=
  match fetch k s with
  | .absent => .fault .noInstance
  | .held => .next s
  | .command i t => exec i t

/-- One agent's step (R11). -/
def stepMove (m : Move) (s : State) : Host.Outcome State Fault Refusal :=
  match m with
  | .present k r => presentRequest k r s
  | .accept k => stepAccept k s
  | .answer j n r => sinkAnswer j n r s
  | .reset k => resetInst k s
  | .otherWrite j bytes => otherWrite j bytes s

/-- One step of the system. -/
def step (s : State) : Host.Outcome State Fault Refusal :=
  match s.agenda with
  | [] => .next s
  | m :: rest => stepMove m { s with agenda := rest }

/-- `s` with the command word `w` presented at the port of instance `s.turn`, the payload port empty, the instance IDLE
and its acceptance the next move. -/
def State.withFetchWord (s : State) (nbits w : Nat) : State :=
  match s.insts[s.turn]? with
  | none => s
  | some c =>
    { s.setInst s.turn (c.presenting { cmd := BitVec.ofNat 128 (w % 2 ^ nbits), payload := [] }) with
      agenda := .accept s.turn :: s.agenda }

end Sys2Proof.Machine
end

