-- ==== Sys2Proof/Machine/Assembler.lean ====
section
/-! DEFINITION. The textual form of commands (R69, R70, D24): from a line of text to a command, and to the request that
presents it. The form has no effect on what CORE does; programs and test vectors of the spec are written in it. -/
namespace Sys2Proof.Machine

/-- Why a line of text is no command of R69. -/
inductive AsmError where
  /-- The word before the first space is none of the four mnemonics. -/
  | unknownMnemonic
  /-- A field has no `=`, or a name that R69 does not list. -/
  | unknownField
  /-- A field's value is not of the form R69 gives it. -/
  | badValue
  /-- A field appears twice. -/
  | duplicateField
  /-- One of fin, rsv, opc, masked, len is absent. -/
  | missingField
  /-- payload on an operation other than WRITE_FRAME. -/
  | payloadNotAccepted
  deriving DecidableEq, Repr

/-- The fields read so far (R69: each appears at most once). -/
structure AsmFields where
  fin     : Option Bool := none
  rsv     : Option Nat := none
  opc     : Option Nat := none
  masked  : Option Bool := none
  key     : Option Key := none
  len     : Option (BitVec 64) := none
  payload : Option (List Byte) := none
  deriving DecidableEq, Repr

/-- The text before the first `sep`, and the text after it where there is one. -/
def cutAt (sep : Char) : List Char → List Char × Option (List Char)
  | [] => ([], none)
  | c :: cs =>
    if c = sep then ([], some cs)
    else
      let (a, b) := cutAt sep cs
      (c :: a, b)

/-- The pieces of a text between the separators `sep`. -/
def piecesAt (sep : Char) : List Char → List (List Char)
  | [] => [[]]
  | c :: cs =>
    match piecesAt sep cs with
    | [] => [[c]]
    | p :: ps => if c = sep then [] :: p :: ps else (c :: p) :: ps

/-- The pieces of a text between the separators `, `. -/
def fieldTexts : List Char → List (List Char)
  | [] => [[]]
  | [c] => [[c]]
  | c :: d :: cs =>
    if c = ',' ∧ d = ' ' then [] :: fieldTexts cs
    else
      match fieldTexts (d :: cs) with
      | [] => [[c]]
      | p :: ps => (c :: p) :: ps

/-- The value of a decimal digit. -/
def decDigit (c : Char) : Option Nat :=
  if '0'.toNat ≤ c.toNat ∧ c.toNat ≤ '9'.toNat then some (c.toNat - '0'.toNat) else none

/-- The value of a hexadecimal digit, in either case. -/
def hexDigit (c : Char) : Option Nat :=
  if 'A'.toNat ≤ c.toNat ∧ c.toNat ≤ 'F'.toNat then some (c.toNat - 'A'.toNat + 10)
  else if 'a'.toNat ≤ c.toNat ∧ c.toNat ≤ 'f'.toNat then some (c.toNat - 'a'.toNat + 10)
  else decDigit c

/-- A non-empty numeral in the given base. -/
def numeral (digit : Char → Option Nat) (base : Nat) (cs : List Char) : Option Nat :=
  if cs = [] then none
  else cs.foldl (fun acc c => do some (base * (← acc) + (← digit c))) (some 0)

/-- `0` or `1` (R69 fin, masked). -/
def bitValue (cs : List Char) : Option Bool :=
  if cs = ['0'] then some false else if cs = ['1'] then some true else none

/-- A decimal numeral not above `top` (R69 rsv, opc). -/
def boundedValue (top : Nat) (cs : List Char) : Option Nat :=
  match numeral decDigit 10 cs with
  | some n => if n ≤ top then some n else none
  | none => none

/-- `HH`, two hexadecimal digits (R69). -/
def byteValue : List Char → Option Byte
  | [a, b] => (numeral hexDigit 16 [a, b]).map (BitVec.ofNat 8)
  | _ => none

/-- `HH:HH:HH:HH`, KEY[0] first (R69). -/
def keyValue (cs : List Char) : Option Key :=
  match (piecesAt ':' cs).mapM byteValue with
  | some [a, b, c, d] => some { k0 := a, k1 := b, k2 := c, k3 := d }
  | _ => none

/-- `INT` (R69): a decimal integer in the range of a signed 64-bit number, or `0x` and the 64-bit pattern. -/
def lenValue (cs : List Char) : Option (BitVec 64) :=
  match cs with
  | '0' :: 'x' :: hex =>
    match numeral hexDigit 16 hex with
    | some n => if n < 2 ^ 64 then some (BitVec.ofNat 64 n) else none
    | none => none
  | '-' :: dec =>
    match numeral decDigit 10 dec with
    | some n => if n ≤ 2 ^ 63 then some (BitVec.ofInt 64 (-(n : Int))) else none
    | none => none
  | dec =>
    match numeral decDigit 10 dec with
    | some n => if n < 2 ^ 63 then some (BitVec.ofNat 64 n) else none
    | none => none

/-- `[HH HH …]`, the payload bytes in order (R69). -/
def payloadValue (cs : List Char) : Option (List Byte) :=
  match cs with
  | '[' :: rest =>
    match cutAt ']' rest with
    | ([], some []) => some []
    | (inner, some []) => (piecesAt ' ' inner).mapM byteValue
    | _ => none
  | _ => none

/-- Puts a value into a field that is still absent. -/
def setField {α : Type} (old value : Option α) : Except AsmError (Option α) :=
  match old, value with
  | some _, _ => .error .duplicateField
  | none, none => .error .badValue
  | none, some v => .ok (some v)

/-- Reads one field (R69). -/
def readField (f : AsmFields) (text : List Char) : Except AsmError AsmFields :=
  match cutAt '=' text with
  | (_, none) => .error .unknownField
  | (name, some v) =>
    if name = "fin".toList then do return { f with fin := ← setField f.fin (bitValue v) }
    else if name = "rsv".toList then do return { f with rsv := ← setField f.rsv (boundedValue 7 v) }
    else if name = "opc".toList then do return { f with opc := ← setField f.opc (boundedValue 15 v) }
    else if name = "masked".toList then do return { f with masked := ← setField f.masked (bitValue v) }
    else if name = "key".toList then do return { f with key := ← setField f.key (keyValue v) }
    else if name = "len".toList then do return { f with len := ← setField f.len (lenValue v) }
    else if name = "payload".toList then do return { f with payload := ← setField f.payload (payloadValue v) }
    else .error .unknownField

/-- R69: `key` defaults to `00:00:00:00`. -/
def zeroKey : Key := { k0 := 0#8, k1 := 0#8, k2 := 0#8, k3 := 0#8 }

/-- R69: the header description of the fields, all required but `key`. -/
def asmHeader (f : AsmFields) : Except AsmError Header :=
  match f.fin, f.rsv, f.opc, f.masked, f.len with
  | some fin, some rsv, some opc, some masked, some len =>
    .ok { fin := fin, rsv := rsv, opc := opc, masked := masked, key := f.key.getD zeroKey, len := len }
  | _, _, _, _, _ => .error .missingField

/-- R69: the four mnemonics. -/
def asmOp (name : List Char) : Except AsmError Op :=
  if name = "SIZE".toList then .ok .size
  else if name = "ENCODE".toList then .ok .encode
  else if name = "WRITE_HEADER".toList then .ok .writeHeader
  else if name = "WRITE_FRAME".toList then .ok .writeFrame
  else .error .unknownMnemonic

/-- R69: the command of an operation and its fields; `payload` is accepted only on WRITE_FRAME, where it defaults to
`[]`. -/
def asmInstr (op : Op) (f : AsmFields) : Except AsmError Instr := do
  let h ← asmHeader f
  match op, f.payload with
  | .writeFrame, p => return .writeFrame h (p.getD [])
  | _, some _ => throw .payloadNotAccepted
  | .size, none => return .size h
  | .encode, none => return .encode h
  | .writeHeader, none => return .writeHeader h

/-- R69: the command that a line of text spells. -/
def assemble (line : String) : Except AsmError Instr :=
  match cutAt ' ' line.toList with
  | (_, none) => .error .missingField
  | (name, some rest) => do
    let op ← asmOp name
    let f ← (fieldTexts rest).foldlM readField {}
    asmInstr op f

/-- R69, R70: the one request that presents a command: its word by R59 with RES0 = 0, and its payload. -/
def requestOf (i : Instr) : Request := { cmd := encode i, payload := i.payload }

end Sys2Proof.Machine
end

