-- ==== Sys2Proof/Safety.lean ====
section
/-! DEFINITION. The terms that statements use: the wire format as a table (R50 to R56), written apart from the encoder of
`Machine/Operands.lean`; the invariant of the system; and counts over the event history. -/
namespace Sys2Proof.Machine

/-! ## The wire format -/

/-- R52, R56: the LC column, for a length that is not negative. -/
def wireLc (l : Int) : BitVec 7 :=
  if l ≤ 125 then BitVec.ofInt 7 l else if l ≤ 65535 then 126#7 else 127#7

/-- R53, R56: the extended length, for a length that is not negative, most significant byte first. -/
def wireExt (l : Int) : List Byte :=
  if l ≤ 125 then []
  else if l ≤ 65535 then [BitVec.ofInt 8 (l / 256), BitVec.ofInt 8 l]
  else
    [BitVec.ofInt 8 (l / 2 ^ 56), BitVec.ofInt 8 (l / 2 ^ 48), BitVec.ofInt 8 (l / 2 ^ 40), BitVec.ofInt 8 (l / 2 ^ 32),
     BitVec.ofInt 8 (l / 2 ^ 24), BitVec.ofInt 8 (l / 2 ^ 16), BitVec.ofInt 8 (l / 2 ^ 8), BitVec.ofInt 8 l]

/-- R54: the mask-key field. -/
def wireKey (d : Desc) : List Byte :=
  if d.masked then [d.key.k0, d.key.k1, d.key.k2, d.key.k3] else []

/-- R50, R51, R53, R54: the header of a descriptor whose length is not negative, byte 0 first: `{FIN, RSV, OPC}`,
`{MASK, LC}`, the extended length, the mask key. -/
def wireHeader (d : Desc) : List Byte :=
  [BitVec.ofBool d.fin ++ d.rsv ++ d.opc, BitVec.ofBool d.masked ++ wireLc d.len.toInt] ++ wireExt d.len.toInt ++ wireKey d

/-- The `n` column of R56, for a length that is not negative. -/
def wireSize (masked : Bool) (l : Int) : Nat :=
  if l ≤ 125 then (if masked then 6 else 2)
  else if l ≤ 65535 then (if masked then 8 else 4)
  else (if masked then 14 else 10)

/-- The descriptor that a command's fields assemble to (R60), OPC modulo 16 (R119). -/
def descOf (h : Header) : Desc :=
  { fin := h.fin, rsv := BitVec.ofNat 3 h.rsv, opc := BitVec.ofNat 4 h.opc, masked := h.masked, key := h.key, len := h.len }

/-- A buffer of 14 zero bytes: `[0]*14` of the pseudocode. -/
def zeroHdr : HBuf := Vector.replicate 14 0#8

/-- `bs ++ [0]*(14-|bs|)` (R84). -/
def paddedHdr (bs : List Byte) : HBuf := Vector.ofFn fun i => (bs ++ List.replicate 14 0#8).getD i.val 0#8

/-- `respond(INVALID_LENGTH, 0, [0]*14, none)`. -/
def invalidLengthResponse : Response := { status := .invalidLength, rsize := 0#4, rhdr := zeroHdr, rerr := none }

/-- `respond(OK, 0, [0]*14, none)` on `Ok`, `respond(SINK_FAILURE, 0, [0]*14, e)` on `Err e` (R86, R89). -/
def answeredResponse : Answer → Response
  | .ok => { status := .ok, rsize := 0#4, rhdr := zeroHdr, rerr := none }
  | .err e => { status := .sinkFailure, rsize := 0#4, rhdr := zeroHdr, rerr := some e }

/-- R35, R26: the sinks after the one that serves an instance has received a write call. -/
def received (sinks : List Sink) (served : Option Nat) (call : Call) : List Sink :=
  match served with
  | none => sinks
  | some j => sinks.modify j fun q => { q with wlog := q.wlog ++ [call] }

/-- R26, R38: a sink after it has answered the call at place `n`: on `Ok` all its bytes are in OUT, on `Err` the prefix
that the reply draws (D11). -/
def settled (q : Sink) (n : Nat) (call : Call) : Reply → Sink
  | .ok => { out := q.out ++ call.bytes, wlog := q.wlog.set n { call with answer := some .ok } }
  | .err e kept => { out := q.out ++ call.bytes.take kept, wlog := q.wlog.set n { call with answer := some (.err e) } }

/-- A command with another mask key. -/
def withKey (key : Key) : Instr → Instr
  | .size h => .size { h with key := key }
  | .encode h => .encode { h with key := key }
  | .writeHeader h => .writeHeader { h with key := key }
  | .writeFrame h p => .writeFrame { h with key := key } p

/-- A command with another opcode. -/
def withOpc (opc : Nat) : Instr → Instr
  | .size h => .size { h with opc := opc }
  | .encode h => .encode { h with opc := opc }
  | .writeHeader h => .writeHeader { h with opc := opc }
  | .writeFrame h p => .writeFrame { h with opc := opc } p

/-- A system in which DESC.KEY of instance `k`'s current command is another one. -/
def withCurrentKey (k : Nat) (key : Key) (s : State) : State :=
  { s with insts := s.insts.modify k fun c =>
      { c with cur := c.cur.map fun u => { u with desc := { u.desc with key := key } } } }

/-- The bits of a command word that are not RES0 (R59, R62). -/
def usedBits : CmdWord := 0xC0FF8000_FFFFFFFF_FFFFFFFF_FFFFFFFF#128

/-- Whether a move can touch instance `k`: it names it, or it answers a write call that it issued. -/
def concerns (s : State) (k : Nat) : Move → Prop
  | .present k' _ => k' = k
  | .accept k' => k' = k
  | .reset k' => k' = k
  | .answer j n _ => ∃ q call, s.sinks[j]? = some q ∧ q.wlog[n]? = some call ∧ call.writer = .core k
  | .otherWrite _ _ => False

/-! ## Other failure values (R8 `SinkError`) -/

/-- An answer with its failure value replaced by `f`. -/
def Answer.mapError (f : SinkError → SinkError) : Answer → Answer
  | .ok => .ok
  | .err e => .err (f e)

/-- A reply with its failure value replaced by `f`. -/
def Reply.mapError (f : SinkError → SinkError) : Reply → Reply
  | .ok => .ok
  | .err e kept => .err (f e) kept

/-- A response with RERR replaced by `f`. -/
def Response.mapError (f : SinkError → SinkError) (r : Response) : Response := { r with rerr := r.rerr.map f }

/-- An event with its failure value replaced by `f`. -/
def Event.mapError (f : SinkError → SinkError) : Event → Event
  | .accept k cmd payload => .accept k cmd payload
  | .issue k bytes => .issue k bytes
  | .answer k r => .answer k (r.mapError f)
  | .respond k r => .respond k (r.mapError f)

/-- A move with its failure value replaced by `f`. -/
def Move.mapError (f : SinkError → SinkError) : Move → Move
  | .present k r => .present k r
  | .accept k => .accept k
  | .answer j n r => .answer j n (r.mapError f)
  | .reset k => .reset k
  | .otherWrite j bytes => .otherWrite j bytes

/-- A WLOG entry with its failure value replaced by `f`. -/
def Call.mapError (f : SinkError → SinkError) (c : Call) : Call := { c with answer := c.answer.map (Answer.mapError f) }

/-- A sink with every failure value in WLOG replaced by `f`. -/
def Sink.mapError (f : SinkError → SinkError) (q : Sink) : Sink := { q with wlog := q.wlog.map (Call.mapError f) }

/-- A system with every failure value, past and to come, replaced by `f`; an instance holds none. -/
def State.mapError (f : SinkError → SinkError) (s : State) : State :=
  { s with
    sinks := s.sinks.map (Sink.mapError f)
    agenda := s.agenda.map (Move.mapError f)
    trace := s.trace.map (Event.mapError f) }

/-- The outcome of a step with every failure value replaced by `f`. -/
def mapErrorResult (f : SinkError → SinkError) : Result → Result
  | .next s => .next (s.mapError f)
  | .fault x => .fault x
  | .refused x => .refused x

/-! ## The state, read -/

/-- OUT of sink `j` (R26). -/
def State.outOf (s : State) (j : Nat) : List Byte := (s.sinks[j]?.map Sink.out).getD []

/-- WLOG of sink `j` (R26). -/
def State.wlogOf (s : State) (j : Nat) : List Call := (s.sinks[j]?.map Sink.wlog).getD []

/-- Instance `k` is IDLE, and is `c`. -/
def IdleAt (s : State) (k : Nat) (c : Inst) : Prop := s.insts[k]? = some c ∧ c.phase = .idle

/-- The bytes of the write call that a waiting instance has issued (R85, R87, R88). -/
def outstandingBytes (c : Inst) (cur : Cur) : List Byte :=
  match c.phase with
  | .waitPay => cur.payload.getD []
  | .waitHdr => headerBytes cur.hbuf cur.hlen
  | .idle => []

/-- Instance `k` is `c`, waits with the current command `cur`, and the call whose answer it waits for stands unanswered
in the WLOG of the sink `q`, number `j`, that serves it. -/
structure WaitingAt (s : State) (k j : Nat) (c : Inst) (cur : Cur) (q : Sink) : Prop where
  instAt : s.insts[k]? = some c
  curAt  : c.cur = some cur
  served : c.sink = some j
  sinkAt : s.sinks[j]? = some q
  callAt : q.wlog[cur.call]? = some { writer := .core k, bytes := outstandingBytes c cur, answer := none }

/-- The call at place `n` of sink `j` has been issued, and instance `k` does not wait for its answer: it is IDLE, or
waits for another call. -/
def NotAwaited (s : State) (k j n : Nat) : Prop :=
  n < (s.wlogOf j).length ∧ ∀ c, s.insts[k]? = some c → waitsFor c j n = false

/-- `n` steps, stopping at the first fault or refusal. -/
def steps : Nat → State → Result
  | 0, s => .next s
  | n + 1, s =>
    match step s with
    | .next t => steps n t
    | .fault f => .fault f
    | .refused r => .refused r

/-! ## The invariant -/

/-- R28, R85, R87, R88: the current command is absent exactly when PHASE = IDLE; a waiting one is a WRITE_HEADER or a
WRITE_FRAME with a length that is not negative, has its header in HBUF, and holds PAYLOAD exactly when it is a
WRITE_FRAME; only a WRITE_FRAME reaches WAIT_PAY. -/
def CurrentCommandOk (c : Inst) : Prop :=
  match c.cur with
  | none => c.phase = .idle
  | some cur =>
    0 ≤ cur.desc.len.toInt ∧ headerBytes cur.hbuf cur.hlen = wireHeader cur.desc ∧
    ((c.phase = .waitHdr ∧ cur.op = .writeHeader ∧ cur.payload = none) ∨
     (c.phase = .waitHdr ∧ cur.op = .writeFrame ∧ cur.payload.isSome) ∨
     (c.phase = .waitPay ∧ cur.op = .writeFrame ∧ cur.payload.isSome))

/-- R35: the call that a waiting instance has issued stands in its sink's WLOG, with its bytes, unanswered. -/
def OutstandingCallOk (s : State) (k : Nat) (c : Inst) : Prop :=
  ∀ cur j q, c.cur = some cur → c.sink = some j → s.sinks[j]? = some q →
    q.wlog[cur.call]? = some { writer := .core k, bytes := outstandingBytes c cur, answer := none }

/-- R42: in WAIT_PAY the header call of the same command stands earlier in the sink's WLOG, answered `Ok`. -/
def HeaderBeforePayload (s : State) (k : Nat) (c : Inst) : Prop :=
  ∀ cur j q, c.phase = .waitPay → c.cur = some cur → c.sink = some j → s.sinks[j]? = some q →
    ∃ n, n < cur.call ∧
      q.wlog[n]? = some { writer := .core k, bytes := wireHeader cur.desc, answer := some .ok }

/-- The invariant of the system. -/
structure SystemInv (s : State) : Prop where
  current : ∀ (k : Nat) c, s.insts[k]? = some c → CurrentCommandOk c
  call    : ∀ k c, s.insts[k]? = some c → OutstandingCallOk s k c
  order   : ∀ k c, s.insts[k]? = some c → HeaderBeforePayload s k c

/-- R63: everything on the payload ports, held for them, and latched in PAYLOAD has at most PAYLOAD_MAX bytes. -/
structure PortsFit (s : State) : Prop where
  coming  : ∀ k r, Move.present k r ∈ s.agenda → r.payload.length ≤ Config.payloadMax
  port    : ∀ c ∈ s.insts, ∀ r ∈ c.port, r.payload.length ≤ Config.payloadMax
  latched : ∀ c ∈ s.insts, ∀ cur p, c.cur = some cur → cur.payload = some p → p.length ≤ Config.payloadMax

/-- R66: the fields that each STATUS leaves in a response. -/
def ResponseOk (r : Response) : Prop :=
  match r.status with
  | .ok => r.rerr = none ∧ r.rsize.toNat ∈ [0, 2, 4, 6, 8, 10, 14] ∧ (r.rsize = 0#4 → r.rhdr = zeroHdr)
  | .invalidLength => r.rerr = none ∧ r.rsize = 0#4 ∧ r.rhdr = zeroHdr
  | .sinkFailure => r.rerr.isSome ∧ r.rsize = 0#4 ∧ r.rhdr = zeroHdr

/-- Every response that the run has shown has the fields of R66. -/
def ResponsesOk (s : State) : Prop := ∀ k r, Event.respond k r ∈ s.trace → ResponseOk r

/-! ## Counts over the history -/

def isAccept (k : Nat) : Event → Bool
  | .accept k' _ _ => decide (k' = k)
  | _ => false

def isRespond (k : Nat) : Event → Bool
  | .respond k' _ => decide (k' = k)
  | _ => false

/-- How many commands instance `k` has accepted. -/
def State.accepted (s : State) (k : Nat) : Nat := s.trace.countP (isAccept k)

/-- How many responses instance `k` has given. -/
def State.responded (s : State) (k : Nat) : Nat := s.trace.countP (isRespond k)

/-- 1 while instance `k` has a command in progress, else 0. -/
def State.inProgress (s : State) (k : Nat) : Nat :=
  match s.insts[k]? with
  | some c => if c.phase = .idle then 0 else 1
  | none => 0

end Sys2Proof.Machine
end

