-- ==== Sys2Proof/Certificates/Slice0/Obligations.lean ====
section
/-! DEFINITION. The statements about the machine, each from a numbered rule of spec/. -/

open Sys2Proof Sys2Proof.Machine

/-! ## Encoding -/

/-- R59, R60, R70: no field of a well-formed command is lost in its word, and the payload port carries the payload. -/
def Obligations.DecodeOfEncodeIsTheCommand : Prop :=
  ∀ i : Instr, i.wellFormed = true → decode (encode i) i.payload = i

/-- R59, R62: a word is the encoding of the command it decodes to, but for its RES0 bits. -/
def Obligations.EncodeOfDecodeClearsRes0 : Prop :=
  ∀ (w : CmdWord) (p : List Byte), encode (decode w p) = w &&& usedBits ∧ (decode w p).wellFormed = true

/-- R62: words that differ in RES0 bits only carry the same command. -/
def Obligations.Res0BitsAreIgnored : Prop :=
  ∀ (w w' : CmdWord) (p : List Byte), w &&& usedBits = w' &&& usedBits → decode w p = decode w' p

/-- R61: every value of the OP field selects its operation. -/
def Obligations.OpFieldSelectsTheOperation : Prop :=
  ∀ (w : CmdWord) (p : List Byte),
    (w.extractLsb' 126 2 = 0#2 → (decode w p).op = .size) ∧
    (w.extractLsb' 126 2 = 1#2 → (decode w p).op = .encode) ∧
    (w.extractLsb' 126 2 = 2#2 → (decode w p).op = .writeHeader) ∧
    (w.extractLsb' 126 2 = 3#2 → (decode w p).op = .writeFrame)

/-- R63: the payload port is taken exactly when OP = 3. -/
def Obligations.PayloadPortIsTakenOnlyByWriteFrame : Prop :=
  ∀ (w : CmdWord) (p p' : List Byte),
    (w.extractLsb' 126 2 = 3#2 → (decode w p).payload = p) ∧
    (w.extractLsb' 126 2 ≠ 3#2 → decode w p = decode w p')

/-- Command words of 95_test_vectors.md decode to the commands they are written for. -/
def Obligations.SpecWordsDecode : Prop :=
  decode 0x00028000_01020304_00000000_000000C8#128 [] =
      .size { fin := false, rsv := 0, opc := 2, masked := true, key := ⟨1, 2, 3, 4⟩, len := 200#64 } ∧
  decode 0x40810000_00000000_00000000_0000000A#128 [] =
      .encode { fin := true, rsv := 0, opc := 1, masked := false, key := ⟨0, 0, 0, 0⟩, len := 10#64 } ∧
  decode 0x80020000_00000000_00000000_000000C8#128 [] =
      .writeHeader { fin := false, rsv := 0, opc := 2, masked := false, key := ⟨0, 0, 0, 0⟩, len := 200#64 } ∧
  decode 0xC0828000_AABBCCDD_00000000_00000003#128 [0xCB, 0xD9, 0xAF] =
      .writeFrame { fin := true, rsv := 0, opc := 2, masked := true, key := ⟨0xAA, 0xBB, 0xCC, 0xDD⟩, len := 3#64 }
        [0xCB, 0xD9, 0xAF]

/-- R69, R70: a line of text that spells a command spells a well-formed one, and the one request it assembles to carries
exactly that command. Details of the grammar are the model's (DESIGN CHOICE, log entry 14). -/
def Obligations.AssembledLineDecodesToItsCommand : Prop :=
  ∀ (line : String) (i : Instr), assemble line = .ok i →
    i.wellFormed = true ∧ decode (requestOf i).cmd (requestOf i).payload = i

/-- R64: the fields of the response word stand where the table says, and RES0 is 0. -/
def Obligations.ResponseWordLayout : Prop :=
  ∀ r : Response,
    (responseWord r).extractLsb' 126 2 = statusCode r.status ∧
    (responseWord r).extractLsb' 122 4 = r.rsize ∧
    (responseWord r).extractLsb' 112 10 = 0#10 ∧
    ∀ k : Fin 14, (responseWord r).extractLsb' (104 - 8 * k.val) 8 = r.rhdr[k]

/-! ## The size function and the header encoder -/

/-- R74: the mask adds exactly 4 bytes, and does not change what is valid. -/
def Obligations.MaskAddsFourBytes : Prop :=
  ∀ d : Desc, headerSize { d with masked := true } = (headerSize { d with masked := false }).map (· + 4)

/-- R83: the size function and the encoder agree on which descriptors are invalid, and on the size, whatever HBUF held
before. -/
def Obligations.SizeAndEncoderAgree : Prop :=
  ∀ (d : Desc) (buf : HBuf),
    (headerSize d = none ↔ encodeHeader d buf = none) ∧
    ∀ n, headerSize d = some n ↔ ∃ b hlen, encodeHeader d buf = some (b, hlen) ∧ hlen.val = n

/-- R50 to R56, R82: the encoder, which writes cell after cell, leaves in `HBUF[0..HLEN)` the bytes of the wire format,
whatever HBUF held before; it fails exactly on a negative length. -/
def Obligations.EncoderWritesTheWireFormat : Prop :=
  ∀ (d : Desc) (buf : HBuf),
    (d.len.toInt < 0 → encodeHeader d buf = none) ∧
    (0 ≤ d.len.toInt → ∃ b hlen, encodeHeader d buf = some (b, hlen) ∧
      headerBytes b hlen = wireHeader d ∧ hlen.val = wireSize d.masked d.len.toInt)

/-- R82: the encoder writes `HBUF[0..HLEN)` and no other cell. -/
def Obligations.EncoderKeepsTheUnusedCells : Prop :=
  ∀ (d : Desc) (buf b : HBuf) (hlen : Fin 15), encodeHeader d buf = some (b, hlen) →
    ∀ k : Fin 14, hlen.val ≤ k.val → b[k] = buf[k]

/-- R57: a reader finds the header length from header byte 1. -/
def Obligations.ReaderFindsTheHeaderLength : Prop :=
  ∀ (d : Desc) (buf b : HBuf) (hlen : Fin 15), encodeHeader d buf = some (b, hlen) →
    let lc := (b[1].extractLsb' 0 7).toNat
    hlen.val = 2 + (if lc ≤ 125 then 0 else if lc = 126 then 2 else 8) + (if b[1].getLsbD 7 then 4 else 0) ∧
    wireHeaderSize b[1] = hlen.val

/-- R58: the length-control value of a header that CORE emits names the shortest form, and the extended field holds the
length, so no value that a shorter form could hold. -/
def Obligations.HeadersUseTheShortestLengthForm : Prop :=
  ∀ (d : Desc) (buf b : HBuf) (hlen : Fin 15), encodeHeader d buf = some (b, hlen) →
    let lc := (b[1].extractLsb' 0 7).toNat
    (lc ≤ 125 → d.len.toInt = lc) ∧
    (lc = 126 → 126 ≤ d.len.toInt ∧ d.len.toInt ≤ 65535 ∧ d.len.toInt = b[2].toNat * 256 + b[3].toNat) ∧
    (lc = 127 → 65536 ≤ d.len.toInt ∧ b[2].getLsbD 7 = false ∧
      d.len.toInt = b[2].toNat * 2 ^ 56 + b[3].toNat * 2 ^ 48 + b[4].toNat * 2 ^ 40 + b[5].toNat * 2 ^ 32 +
        b[6].toNat * 2 ^ 24 + b[7].toNat * 2 ^ 16 + b[8].toNat * 2 ^ 8 + b[9].toNat)

/-- R77, R80: FIN, RSV, OPC and the mask bit stand verbatim in their bits of the two base bytes, and the mask bit leaves
the length-control value alone. -/
def Obligations.BaseBytesHoldTheFieldsVerbatim : Prop :=
  ∀ (d : Desc) (lc : BitVec 7),
    (packByte0 d).getLsbD 7 = d.fin ∧ (packByte0 d).extractLsb' 4 3 = d.rsv ∧ (packByte0 d).extractLsb' 0 4 = d.opc ∧
    (packByte1 d lc).getLsbD 7 = d.masked ∧ (packByte1 d lc).extractLsb' 0 7 = lc

/-! ## The acceptance steps -/

/-- R71, R72, R73: SIZE completes in its acceptance step with the size or InvalidLength; nothing else of the system
changes. The second clause is the same of every command word with OP = 0, whatever the payload port holds. -/
def Obligations.SizeAnswersTheHeaderSize : Prop :=
  ∀ (s : State) (c : Inst), IdleAt s s.turn c →
    let after : Header → State := fun h => { s with
      insts := s.insts.set s.turn { c with phase := .idle, cur := none }
      trace := s.trace ++ [.respond s.turn
        (if h.len.toInt < 0 then invalidLengthResponse
         else { status := .ok, rsize := BitVec.ofNat 4 (wireSize h.masked h.len.toInt), rhdr := zeroHdr, rerr := none })] }
    (∀ h : Header, h.rsv ≤ 7 → exec (.size h) s = .next (after h)) ∧
    ∀ (w : CmdWord) (p : List Byte), w.extractLsb' 126 2 = 0#2 → exec (decode w p) s = .next (after (cmdHeader w))

/-- R84: ENCODE completes in its acceptance step with the header bytes and their number, or InvalidLength; nothing else
of the system changes but the model's own counter `draws`. The second clause is the same of every command word with
OP = 1, whatever the payload port holds. -/
def Obligations.EncodeAnswersTheHeaderBytes : Prop :=
  ∀ (s : State) (c : Inst), IdleAt s s.turn c →
    let after : Header → Nat → State := fun h n => { s with
      draws := n
      insts := s.insts.set s.turn { c with phase := .idle, cur := none }
      trace := s.trace ++ [.respond s.turn
        (if h.len.toInt < 0 then invalidLengthResponse
         else { status := .ok, rsize := BitVec.ofNat 4 (wireSize h.masked h.len.toInt)
                rhdr := paddedHdr (wireHeader (descOf h)), rerr := none })] }
    (∀ h : Header, h.rsv ≤ 7 → ∃ n, exec (.encode h) s = .next (after h n)) ∧
    ∀ (w : CmdWord) (p : List Byte), w.extractLsb' 126 2 = 1#2 →
      ∃ n, exec (decode w p) s = .next (after (cmdHeader w) n)

/-- R85: with a length that is not negative WRITE_HEADER issues exactly one write call, of the whole header, and waits
in WAIT_HDR; with a negative one it answers InvalidLength and makes no call. Nothing else of the system changes but the
model's own counter `draws` (log entry 5). The second clause is the same of every command word with OP = 2, whatever the
payload port holds. Three clauses are the model's and not R85's: no OUT changes when the call is issued (DEDUCED, log
entry 4); an instance without an attached sink shows the Issue event and waits too (DEDUCED, log entry 9); and
`cur.call` is the call's place in WLOG (DESIGN CHOICE, log entry 11). -/
def Obligations.WriteHeaderIssuesTheHeader : Prop :=
  ∀ (s : State) (c : Inst), IdleAt s s.turn c →
    let runs : Header → Result → Prop := fun h r =>
      (h.len.toInt < 0 → r = .next { s with
        insts := s.insts.set s.turn { c with phase := .idle, cur := none }
        trace := s.trace ++ [.respond s.turn invalidLengthResponse] }) ∧
      (0 ≤ h.len.toInt → ∃ cur n, r = .next { s with
          draws := n
          insts := s.insts.set s.turn { c with phase := .waitHdr, cur := some cur }
          sinks := received s.sinks c.sink { writer := .core s.turn, bytes := wireHeader (descOf h), answer := none }
          trace := s.trace ++ [.issue s.turn (wireHeader (descOf h))] } ∧
        cur.op = .writeHeader ∧ cur.desc = descOf h ∧ cur.payload = none ∧
        headerBytes cur.hbuf cur.hlen = wireHeader (descOf h) ∧
        ∀ j q, c.sink = some j → s.sinks[j]? = some q → cur.call = q.wlog.length)
    (∀ h : Header, h.rsv ≤ 7 → runs h (exec (.writeHeader h) s)) ∧
    ∀ (w : CmdWord) (p : List Byte), w.extractLsb' 126 2 = 2#2 → runs (cmdHeader w) (exec (decode w p) s)

/-- R87: with a length that is not negative WRITE_FRAME latches the payload, whatever its length, issues exactly one
write call, of the whole header, and waits in WAIT_HDR; with a negative one it answers InvalidLength and makes no call.
The second clause is the same of every command word with OP = 3 and its payload port. The counter `draws` is the model's
own (log entry 5), and three clauses are the model's and not R87's: no OUT changes when the call is issued (DEDUCED, log
entry 4); an instance without an attached sink shows the Issue event and waits too (DEDUCED, log entry 9); and
`cur.call` is the call's place in WLOG (DESIGN CHOICE, log entry 11). -/
def Obligations.WriteFrameIssuesTheHeader : Prop :=
  ∀ (s : State) (c : Inst), IdleAt s s.turn c →
    let runs : Header → List Byte → Result → Prop := fun h p r =>
      (h.len.toInt < 0 → r = .next { s with
        insts := s.insts.set s.turn { c with phase := .idle, cur := none }
        trace := s.trace ++ [.respond s.turn invalidLengthResponse] }) ∧
      (0 ≤ h.len.toInt → ∃ cur n, r = .next { s with
          draws := n
          insts := s.insts.set s.turn { c with phase := .waitHdr, cur := some cur }
          sinks := received s.sinks c.sink { writer := .core s.turn, bytes := wireHeader (descOf h), answer := none }
          trace := s.trace ++ [.issue s.turn (wireHeader (descOf h))] } ∧
        cur.op = .writeFrame ∧ cur.desc = descOf h ∧ cur.payload = some p ∧
        headerBytes cur.hbuf cur.hlen = wireHeader (descOf h) ∧
        ∀ j q, c.sink = some j → s.sinks[j]? = some q → cur.call = q.wlog.length)
    (∀ (h : Header) (p : List Byte), h.rsv ≤ 7 → runs h p (exec (.writeFrame h p) s)) ∧
    ∀ (w : CmdWord) (p : List Byte), w.extractLsb' 126 2 = 3#2 → runs (cmdHeader w) p (exec (decode w p) s)

/-- R94: every operation with a negative length completes in its acceptance step with STATUS = INVALID_LENGTH; no
write call is made, and nothing else of the system changes. -/
def Obligations.NegativeLengthWritesNothing : Prop :=
  ∀ (s : State) (c : Inst) (i : Instr), IdleAt s s.turn c → i.header.rsv ≤ 7 → i.header.len.toInt < 0 →
    exec i s = .next { s with
      insts := s.insts.set s.turn { c with phase := .idle, cur := none }
      trace := s.trace ++ [.respond s.turn invalidLengthResponse] }

/-- R118: ready is asserted exactly in IDLE; a busy instance accepts nothing and holds what is presented, neither dropped
nor taken: neither `exec` nor the acceptance move changes anything but the agenda. That `exec` answers the unchanged state there, and
that the move is consumed without effect, are the model's forms of R118's hold (DESIGN CHOICE, log entries 13 and 7). -/
def Obligations.BusyInstanceHoldsTheCommand : Prop :=
  ∀ (s : State) (c : Inst) (i : Instr) (k : Nat) (rest : List Move),
    (c.ready = true ↔ c.phase = .idle) ∧
    (c.phase ≠ .idle → s.insts[s.turn]? = some c → exec i s = .next s) ∧
    (c.phase ≠ .idle → s.insts[k]? = some c → s.agenda = .accept k :: rest → step s = .next { s with agenda := rest })

/-- R119: with integer fields, an RSV above 7 is refused and OPC is taken modulo 16; a command word cannot carry a value
out of range. -/
def Obligations.IntegerFieldRanges : Prop :=
  ∀ (s : State) (c : Inst) (i : Instr), IdleAt s s.turn c →
    (7 < i.header.rsv → exec i s = .refused .rsvOutOfRange) ∧
    exec (withOpc (i.header.opc % 16) i) s = exec i s ∧
    ∀ (w : CmdWord) (p : List Byte), (decode w p).header.rsv ≤ 7 ∧ (decode w p).header.opc ≤ 15

/-- R61, R68, R102: an IDLE instance runs whatever word is presented, and no step of the system refuses. -/
def Obligations.EveryCommandWordRuns : Prop :=
  (∀ (s : State) (c : Inst) (w : CmdWord) (p : List Byte), IdleAt s s.turn c → ∃ t, exec (decode w p) s = .next t) ∧
  ∀ (s : State) (r : Refusal), step s ≠ .refused r

/-- R20: with MASKED = 0 another key changes nothing but DESC.KEY itself, which no rule reads then. -/
def Obligations.KeyIsIgnoredWhenUnmasked : Prop :=
  ∀ (s t : State) (c : Inst) (i : Instr) (key : Key), IdleAt s s.turn c → i.header.masked = false →
    exec i s = .next t → exec (withKey key i) s = .next (withCurrentKey s.turn key t)

/-! ## Frames -/

/-- R39, R73: SIZE and ENCODE change no sink, no other instance, and of the own one only PHASE and the current command,
which are IDLE and absent afterwards; exactly one event, the response, is shown. -/
def Obligations.SizeAndEncodeFrame : Prop :=
  ∀ (s t : State) (c : Inst) (h : Header) (i : Instr), i = .size h ∨ i = .encode h →
    IdleAt s s.turn c → exec i s = .next t →
    t.sinks = s.sinks ∧ t.agenda = s.agenda ∧ t.turn = s.turn ∧
    (∀ k, k ≠ s.turn → t.insts[k]? = s.insts[k]?) ∧
    t.insts[s.turn]? = some { c with phase := .idle, cur := none } ∧
    ∃ r, t.trace = s.trace ++ [.respond s.turn r]

/-- R39: WRITE_HEADER and WRITE_FRAME, at acceptance, change no OUT, no WLOG of a sink that does not serve the instance,
no other instance, no port and no wiring; the WLOG of the sink that serves it gains at most one entry; exactly one event
is shown. That no OUT changes when the call is issued is the model's reading, which R39 does not say (DEDUCED, log
entry 4). -/
def Obligations.WriteAcceptanceFrame : Prop :=
  ∀ (s t : State) (c : Inst) (h : Header) (p : List Byte) (i : Instr), i = .writeHeader h ∨ i = .writeFrame h p →
    IdleAt s s.turn c → exec i s = .next t →
    (∀ j, t.outOf j = s.outOf j) ∧
    (∀ j, c.sink ≠ some j → t.sinks[j]? = s.sinks[j]?) ∧
    (∀ j, ∃ calls, t.wlogOf j = s.wlogOf j ++ calls ∧ calls.length ≤ 1) ∧
    t.agenda = s.agenda ∧ t.turn = s.turn ∧
    (∀ k, k ≠ s.turn → t.insts[k]? = s.insts[k]?) ∧
    (∃ c', t.insts[s.turn]? = some c' ∧ c'.port = c.port ∧ c'.sink = c.sink) ∧
    ∃ e, t.trace = s.trace ++ [e]

/-- R106: instances share no state: a step changes no instance but the one its move concerns. -/
def Obligations.InstancesShareNoState : Prop :=
  ∀ (s t : State) (m : Move) (rest : List Move) (k : Nat), s.agenda = m :: rest → ¬ concerns s k m →
    step s = .next t → t.insts[k]? = s.insts[k]?

/-- R26, R31: a step only appends to OUT, and keeps every WLOG entry in its place, with its issuer, its bytes, and its
answer once given. -/
def Obligations.SinksOnlyGrow : Prop :=
  ∀ (s t : State) (j : Nat), step s = .next t →
    s.outOf j <+: t.outOf j ∧
    ∀ (n : Nat) (call : Call), (s.wlogOf j)[n]? = some call →
      ∃ a, (t.wlogOf j)[n]? = some { call with answer := a } ∧ (call.answer ≠ none → a = call.answer)

/-! ## The sink-answer steps -/

/-- R86, R95: the answer to WRITE_HEADER's call ends the command: OK, or SINK_FAILURE with the sink's value. What OUT
holds afterwards is R38's on `Ok`; on `Err` it is the prefix that the model draws (D11, DESIGN CHOICE, log entry 3). -/
def Obligations.WriteHeaderEndsWithTheAnswer : Prop :=
  ∀ (s : State) (rest : List Move) (k j : Nat) (c : Inst) (cur : Cur) (q : Sink) (r : Reply),
    s.agenda = .answer j cur.call r :: rest → WaitingAt s k j c cur q → c.phase = .waitHdr → cur.op = .writeHeader →
    step s = .next { s with
      agenda := rest
      insts := s.insts.set k { c with phase := .idle, cur := none }
      sinks := s.sinks.set j
        (settled q cur.call { writer := .core k, bytes := headerBytes cur.hbuf cur.hlen, answer := none } r)
      trace := s.trace ++ [.answer k r.seen, .respond k (answeredResponse r.seen)] }

/-- R88, R92: after `Ok` to the header WRITE_FRAME issues the payload, even an empty one, unchanged, in a second call to
the same sink, and waits in WAIT_PAY; after `Err` it ends with SINK_FAILURE and the sink's value, and makes no payload
call. Three clauses are the model's: what OUT holds after `Err` is the prefix that it draws (D11, DESIGN CHOICE, log
entry 3); OUT gains nothing when the payload call is issued (DEDUCED, log entry 4); and `cur.call` becomes the payload
call's place in WLOG (DESIGN CHOICE, log entry 11). -/
def Obligations.WriteFrameHeaderAnswer : Prop :=
  ∀ (s : State) (rest : List Move) (k j : Nat) (c : Inst) (cur : Cur) (q : Sink) (p : List Byte),
    WaitingAt s k j c cur q → c.phase = .waitHdr → cur.op = .writeFrame → cur.payload = some p →
    (s.agenda = .answer j cur.call .ok :: rest →
      step s = .next { s with
        agenda := rest
        insts := s.insts.set k { c with phase := .waitPay, cur := some { cur with call := q.wlog.length } }
        sinks := s.sinks.set j
          { out := q.out ++ headerBytes cur.hbuf cur.hlen
            wlog := q.wlog.set cur.call
                { writer := .core k, bytes := headerBytes cur.hbuf cur.hlen, answer := some .ok }
              ++ [{ writer := .core k, bytes := p, answer := none }] }
        trace := s.trace ++ [.answer k .ok, .issue k p] }) ∧
    ∀ (e : SinkError) (kept : Nat), s.agenda = .answer j cur.call (.err e kept) :: rest →
      step s = .next { s with
        agenda := rest
        insts := s.insts.set k { c with phase := .idle, cur := none }
        sinks := s.sinks.set j
          (settled q cur.call { writer := .core k, bytes := headerBytes cur.hbuf cur.hlen, answer := none } (.err e kept))
        trace := s.trace ++ [.answer k (.err e), .respond k (answeredResponse (.err e))] }

/-- R89: the answer to the payload call ends WRITE_FRAME: OK, or SINK_FAILURE with the sink's value. What OUT holds
after `Err` is the prefix that the model draws (D11, DESIGN CHOICE, log entry 3). -/
def Obligations.WriteFrameEndsWithThePayloadAnswer : Prop :=
  ∀ (s : State) (rest : List Move) (k j : Nat) (c : Inst) (cur : Cur) (q : Sink) (p : List Byte) (r : Reply),
    s.agenda = .answer j cur.call r :: rest → WaitingAt s k j c cur q → c.phase = .waitPay → cur.payload = some p →
    step s = .next { s with
      agenda := rest
      insts := s.insts.set k { c with phase := .idle, cur := none }
      sinks := s.sinks.set j (settled q cur.call { writer := .core k, bytes := p, answer := none } r)
      trace := s.trace ++ [.answer k r.seen, .respond k (answeredResponse r.seen)] }

/-- R38: an answer `Ok` appends all of the call's bytes to OUT contiguously, whoever issued the call. On `Err` the prefix
is the model's draw (DESIGN CHOICE, log entry 3), and that OUT changes only at an answer is its reading (DEDUCED, log
entry 4). -/
def Obligations.OkAppendsTheWholeCall : Prop :=
  ∀ (s t : State) (rest : List Move) (j n : Nat) (r : Reply) (q : Sink) (call : Call),
    s.agenda = .answer j n r :: rest → s.sinks[j]? = some q → q.wlog[n]? = some call → step s = .next t →
    (r = .ok → t.outOf j = q.out ++ call.bytes) ∧
    (∀ e kept, r = .err e kept → t.outOf j = q.out ++ call.bytes.take kept) ∧
    ∀ j', j' ≠ j → t.outOf j' = s.outOf j'

/-! ## Reset and waiting -/

/-- R110: reset, in whatever phase, leaves the instance IDLE with no current command and shows nothing, and R26, R29: the
sinks are not reset. That the requester's port stays is the model's reading (DEDUCED, log entry 10). -/
def Obligations.ResetLeavesTheInstanceIdle : Prop :=
  ∀ (s : State) (rest : List Move) (k : Nat) (c : Inst), s.agenda = .reset k :: rest → s.insts[k]? = some c →
    step s = .next { s with
      agenda := rest
      insts := s.insts.set k { phase := .idle, cur := none, sink := c.sink, port := c.port } }

/-- R111: a reset while waiting abandons the command. The reset itself shows no event and changes no sink. From then on,
in every run, however long and whatever the instance accepts meanwhile, the abandoned call is not awaited. And in every
state a sink's answer, whichever it is, to a call of an instance that does not await it changes the sink alone: no
response, no payload call. That such an answer shows no Answer event and is told from the answer to a newer command's
call is the model's choice (log entry 11); that the reset leaves the port is its reading (log entry 10); the prefix that
an `Err` leaves in OUT is its draw (D11, log entry 3). -/
def Obligations.ResetAbandonsTheCommand : Prop :=
  (∀ (s : State) (rest : List Move) (k j : Nat) (c : Inst) (cur : Cur) (q : Sink),
    s.agenda = .reset k :: rest → WaitingAt s k j c cur q → c.phase ≠ .idle →
    step s = .next { s with
      agenda := rest
      insts := s.insts.set k { c with phase := .idle, cur := none } } ∧
    ∀ (m : Nat) (t : State), steps (m + 1) s = .next t → NotAwaited t k j cur.call) ∧
  ∀ (s : State) (rest : List Move) (k j n : Nat) (q : Sink) (call : Call) (r : Reply),
    s.agenda = .answer j n r :: rest → NotAwaited s k j n →
    s.sinks[j]? = some q → q.wlog[n]? = some call → call.writer = .core k → call.answer = none →
    step s = .next { s with agenda := rest, sinks := s.sinks.set j (settled q n call r) }

/-- R29, R112: the values that the spec gives for reset, in every system. The last clause is the model's choice: N_INST
and the sink assignment are OPEN, and `State.reset` is the system of one instance and one sink (DESIGN CHOICE, log
entry 2). -/
def Obligations.ResetValues : Prop :=
  (∀ (nSinks : Nat) (wiring : Config.Wiring) (c : Inst), c ∈ (State.system nSinks wiring).insts →
    c.phase = .idle ∧ c.cur = none ∧ c.ready = true) ∧
  (∀ (nSinks : Nat) (wiring : Config.Wiring), (State.system nSinks wiring).trace = [] ∧
    (State.system nSinks wiring).insts.length = wiring.length) ∧
  State.reset = State.system 1 [some 0]

/-- R109: an instance whose call the sink never answers, and that is not reset, waits for ever: over any number of steps
its phase and its current command stay, it gives no response and accepts no command. That the moves to come are data, in
which answers and resets can be looked for, is the model's form (DESIGN CHOICE, log entry 7), and `cur.call` tells which
answer is meant (DESIGN CHOICE, log entry 11). -/
def Obligations.UnansweredInstanceWaitsForEver : Prop :=
  ∀ (n : Nat) (s t : State) (k : Nat) (c : Inst) (cur : Cur),
    s.insts[k]? = some c → c.phase ≠ .idle → c.cur = some cur → .reset k ∉ s.agenda →
    (∀ j r, c.sink = some j → .answer j cur.call r ∉ s.agenda) →
    steps n s = .next t →
    (∃ c', t.insts[k]? = some c' ∧ c'.phase = c.phase ∧ c'.cur = some cur) ∧
    t.responded k = s.responded k ∧ t.accepted k = s.accepted k

/-! ## Steps and runs -/

/-- R12, R59, R118: the acceptance move of an IDLE instance runs the command that the word at its port carries, with the
payload port: the request leaves the port, the Accept event shows the whole word, and `exec` does the rest. Agenda and turn are the model's own (DESIGN CHOICE, log
entry 7), and so is that `step` and not `exec` shows the Accept event (DESIGN CHOICE, log entry 13). -/
def Obligations.StepRunsTheDecodedCommand : Prop :=
  ∀ (s : State) (rest : List Move) (k : Nat) (c : Inst) (w : CmdWord) (p : List Byte) (more : List Request),
    s.agenda = .accept k :: rest → IdleAt s k c → c.port = { cmd := w, payload := p } :: more →
    step s = exec (decode w p) { s with
      agenda := rest
      turn := k
      insts := s.insts.set k { c with port := more }
      trace := s.trace ++ [.accept k w p] }

/-- The model's choice, no rule's words: a step with an empty agenda answers the same state (DESIGN CHOICE, log entry 7).
It makes a system in which every agent waits a run that does not end, as R109 asks for a hang. -/
def Obligations.NothingMovesOnAnEmptyAgenda : Prop :=
  ∀ (s : State) (n : Nat), s.agenda = [] → step s = .next s ∧ steps n s = .next s

/-- R41, R90, R91: a whole WRITE_FRAME makes two write calls when the sink accepts both, the header and then the payload
as supplied, whatever its length and the mask bit, and OUT gains exactly their bytes in that order; the same two calls
when it fails the payload; one call when it fails the header; none when the length is negative. One response ends it.
What OUT gains from a failed call is the prefix that the model draws (D11, DESIGN CHOICE, log entry 3); the agenda is the
model's (log entry 7). -/
def Obligations.WriteFrameMakesTwoOneOrNoCalls : Prop :=
  ∀ (s : State) (rest : List Move) (k j : Nat) (c : Inst) (q : Sink) (w : CmdWord) (p : List Byte)
    (more : List Request),
    IdleAt s k c → c.port = { cmd := w, payload := p } :: more → c.sink = some j → s.sinks[j]? = some q →
    w.extractLsb' 126 2 = 3#2 →
    let hdr := wireHeader (descOf (cmdHeader w))
    let ended : State := { s with
      agenda := rest
      turn := k
      insts := s.insts.set k { phase := .idle, cur := none, sink := c.sink, port := more } }
    (0 ≤ (w.extractLsb' 0 64).toInt →
      s.agenda = .accept k :: .answer j q.wlog.length .ok :: .answer j (q.wlog.length + 1) .ok :: rest →
      ∃ n, steps 3 s = .next { ended with
        draws := n
        sinks := s.sinks.set j
          { out := q.out ++ hdr ++ p
            wlog := q.wlog ++ [{ writer := .core k, bytes := hdr, answer := some .ok },
                               { writer := .core k, bytes := p, answer := some .ok }] }
        trace := s.trace ++ [.accept k w p, .issue k hdr, .answer k .ok, .issue k p, .answer k .ok,
                             .respond k (answeredResponse .ok)] }) ∧
    (0 ≤ (w.extractLsb' 0 64).toInt → ∀ (e : SinkError) (kept : Nat),
      s.agenda = .accept k :: .answer j q.wlog.length .ok :: .answer j (q.wlog.length + 1) (.err e kept) :: rest →
      ∃ n, steps 3 s = .next { ended with
        draws := n
        sinks := s.sinks.set j
          { out := q.out ++ hdr ++ p.take kept
            wlog := q.wlog ++ [{ writer := .core k, bytes := hdr, answer := some .ok },
                               { writer := .core k, bytes := p, answer := some (.err e) }] }
        trace := s.trace ++ [.accept k w p, .issue k hdr, .answer k .ok, .issue k p, .answer k (.err e),
                             .respond k (answeredResponse (.err e))] }) ∧
    (0 ≤ (w.extractLsb' 0 64).toInt → ∀ (e : SinkError) (kept : Nat),
      s.agenda = .accept k :: .answer j q.wlog.length (.err e kept) :: rest →
      ∃ n, steps 2 s = .next { ended with
        draws := n
        sinks := s.sinks.set j
          { out := q.out ++ hdr.take kept
            wlog := q.wlog ++ [{ writer := .core k, bytes := hdr, answer := some (.err e) }] }
        trace := s.trace ++ [.accept k w p, .issue k hdr, .answer k (.err e), .respond k (answeredResponse (.err e))] }) ∧
    ((w.extractLsb' 0 64).toInt < 0 → s.agenda = .accept k :: rest →
      steps 1 s = .next { ended with
        trace := s.trace ++ [.accept k w p, .respond k invalidLengthResponse] })

/-- R44, R117: on a shared sink another writer's call can land between the header and the payload of a frame, and the
command still ends with OK. The order of moves is the model's agenda (DESIGN CHOICE, log entry 7), and what another writer
does is its reading (DEDUCED, log entry 16). -/
def Obligations.AnotherWriterCanSplitAFrame : Prop :=
  ∀ (s : State) (rest : List Move) (k j : Nat) (c : Inst) (q : Sink) (w : CmdWord) (p other : List Byte)
    (more : List Request),
    IdleAt s k c → c.port = { cmd := w, payload := p } :: more → c.sink = some j → s.sinks[j]? = some q →
    w.extractLsb' 126 2 = 3#2 → 0 ≤ (w.extractLsb' 0 64).toInt →
    s.agenda = .accept k :: .answer j q.wlog.length .ok :: .otherWrite j other ::
      .answer j (q.wlog.length + 2) .ok :: .answer j (q.wlog.length + 1) .ok :: rest →
    ∃ t, steps 5 s = .next t ∧
      t.outOf j = q.out ++ wireHeader (descOf (cmdHeader w)) ++ other ++ p ∧
      t.trace.getLast? = some (.respond k (answeredResponse .ok))

/-! ## Invariants -/

/-- The invariant holds of every system at reset (R28, R29). -/
def Obligations.InvariantHoldsAtReset : Prop :=
  ∀ (nSinks : Nat) (wiring : Config.Wiring), SystemInv (State.system nSinks wiring)

/-- R28, R35, R42: every step keeps the invariant: the current command is absent exactly in IDLE, the call it waits for
stands unanswered with its bytes in the sink's WLOG, and in WAIT_PAY its header call stands before it, answered `Ok`. `cur.call`,
by which the call is found, is the model's own (DESIGN CHOICE, log entry 11). -/
def Obligations.EveryStepKeepsTheInvariant : Prop :=
  ∀ s t : State, SystemInv s → step s = .next t → SystemInv t

/-- R24: a step that is no reset of instance `k` keeps the balance of its commands and responses: each accepted command
is answered by one response or is still in progress. A reset shows neither. -/
def Obligations.EachCommandGetsOneResponse : Prop :=
  ∀ (s t : State) (m : Move) (rest : List Move) (k : Nat), s.agenda = m :: rest → k < s.insts.length →
    step s = .next t →
    (m ≠ .reset k →
      t.accepted k + s.responded k + s.inProgress k = s.accepted k + t.responded k + t.inProgress k) ∧
    (m = .reset k → t.accepted k = s.accepted k ∧ t.responded k = s.responded k ∧ t.inProgress k = 0)

/-- R64, R66: every step keeps the shape of the responses shown: RERR exactly with SINK_FAILURE, RSIZE one of 0, 2, 4, 6,
8, 10, 14, and RSIZE and RHDR all 0 with every error. -/
def Obligations.EveryStepKeepsResponsesWellFormed : Prop :=
  ∀ s t : State, ResponsesOk s → step s = .next t → ResponsesOk t

/-- R8, R63: PAYLOAD_MAX bounds the requester: if every payload presented, held or to come fits, what CORE latches fits,
after every step. -/
def Obligations.EveryStepKeepsPayloadsWithinThePort : Prop :=
  ∀ s t : State, PortsFit s → step s = .next t → PortsFit t

/-- R14, R65: the codes of PHASE and STATUS. -/
def Obligations.PhaseAndStatusCodes : Prop :=
  phaseCode .idle = 0#2 ∧ phaseCode .waitHdr = 1#2 ∧ phaseCode .waitPay = 2#2 ∧
  statusCode .ok = 0#2 ∧ statusCode .invalidLength = 1#2 ∧ statusCode .sinkFailure = 2#2

/-- R8, R64, R95, D25: CORE passes the sink's failure value through and never inspects it: with every failure value, in
the history and still to come, replaced by another, a step does the same with the replaced values. -/
def Obligations.FailureValuesAreNeverInspected : Prop :=
  ∀ (f : SinkError → SinkError) (s : State), step (s.mapError f) = mapErrorResult f (step s)
end

