-- ==== Sys2Proof/Laws/Encoder.lean ====
section
/-! SUPPORT. The parts of the header encoder: tiers, byte lengths, and what a run of cell writes leaves in HBUF. -/
namespace Sys2Proof.Machine

/-- The range of LEN read as a signed integer (R7 `LEN_MAX`). -/
theorem payloadLength_range (d : Desc) : -2 ^ 63 ≤ payloadLength d ∧ payloadLength d < 2 ^ 63 := by
  have h1 := BitVec.le_toInt d.len
  have h2 := BitVec.toInt_lt (x := d.len)
  constructor <;> simp_all [payloadLength]

/-- R78: which lengths each tier holds. -/
theorem lengthTier_cases (d : Desc) :
    (payloadLength d < 0 ∧ lengthTier (payloadLength d) = .invalid) ∨
    (0 ≤ payloadLength d ∧ payloadLength d ≤ 125 ∧ lengthTier (payloadLength d) = .t7) ∨
    (125 < payloadLength d ∧ payloadLength d ≤ 65535 ∧ lengthTier (payloadLength d) = .t16) ∨
    (65535 < payloadLength d ∧ payloadLength d < 2 ^ 63 ∧ lengthTier (payloadLength d) = .t64) := by
  have h := (payloadLength_range d).2
  unfold lengthTier t7Max t16Max
  split_ifs <;> simp <;> omega

@[simp] theorem beBytes_length (n u : Nat) : (beBytes n u).length = n := by simp [beBytes]

/-- R79: the extended length has 0, 2 or 8 bytes. -/
theorem encodeLength_ext_length (l : Int) :
    (encodeLength l).2.length = match lengthTier l with | .t16 => 2 | .t64 => 8 | .t7 => 0 | .invalid => 0 := by
  unfold encodeLength
  cases lengthTier l <;> simp

/-- A run of cell writes from `off` on leaves its bytes there and every other cell as it was. -/
theorem writeCells_getElem (bs : List Byte) (buf : HBuf) (off k : Nat) (hk : k < 14) :
    (writeCells buf off bs)[k] = if h : off ≤ k ∧ k < off + bs.length then bs[k - off] else buf[k] := by
  induction bs generalizing buf off with
  | nil => simp [writeCells]
  | cons b bs ih =>
    simp only [writeCells]
    rw [ih, Vector.getElem_setIfInBounds]
    simp only [List.length_cons]
    split_ifs with h1 h2 h3 h4 h5
    · have h : k - off = (k - (off + 1)) + 1 := by omega
      simp [h]
    · omega
    · subst h3; simp
    · omega
    · omega
    · rfl

/-- R71: the bound `LEN_MAX` of the third tier holds of every length. -/
theorem payloadLength_le_lenMax (d : Desc) : payloadLength d ≤ lenMax := by
  have := BitVec.toInt_lt (x := d.len)
  simp only [payloadLength, lenMax]
  omega

/-- R7, R56: a header size lies between `HDR_MIN` and `HDR_MAX`. -/
theorem headerSize_bounds (d : Desc) (n : Nat) (h : headerSize d = some n) : hdrMin ≤ n ∧ n ≤ hdrMax := by
  unfold headerSize at h
  split at h
  · cases h
  · have h := Option.some.inj h
    subst h
    split <;> split <;> (try split) <;> decide

/-- A number below 2^64 in base 256, from its successive quotients. -/
theorem nat_eq_base256_digits (n a1 a2 a3 a4 a5 a6 a7 : Nat)
    (h1 : a1 = n / 256) (h2 : a2 = a1 / 256) (h3 : a3 = a2 / 256) (h4 : a4 = a3 / 256)
    (h5 : a5 = a4 / 256) (h6 : a6 = a5 / 256) (h7 : a7 = a6 / 256) (hb : a7 < 256) :
    n = a7 % 256 * 72057594037927936 + a6 % 256 * 281474976710656 + a5 % 256 * 1099511627776 + a4 % 256 * 4294967296 +
      a3 % 256 * 16777216 + a2 % 256 * 65536 + a1 % 256 * 256 + n % 256 := by
  have k1 := Nat.div_add_mod n 256
  have k2 := Nat.div_add_mod a1 256
  have k3 := Nat.div_add_mod a2 256
  have k4 := Nat.div_add_mod a3 256
  have k5 := Nat.div_add_mod a4 256
  have k6 := Nat.div_add_mod a5 256
  have k7 := Nat.div_add_mod a6 256
  have k8 := Nat.mod_eq_of_lt hb
  rw [← h1] at k1
  rw [← h2] at k2
  rw [← h3] at k3
  rw [← h4] at k4
  rw [← h5] at k5
  rw [← h6] at k6
  rw [← h7] at k7
  rw [k8]
  generalize n % 256 = r0 at *
  generalize a1 % 256 = r1 at *
  generalize a2 % 256 = r2 at *
  generalize a3 % 256 = r3 at *
  generalize a4 % 256 = r4 at *
  generalize a5 % 256 = r5 at *
  generalize a6 % 256 = r6 at *
  clear h1 h2 h3 h4 h5 h6 h7 hb k8
  linarith

/-- Byte `k / 8` of a number. -/
theorem toNat_ofInt_div_pow (n k : Nat) : (BitVec.ofInt 8 ((n : Int) / 2 ^ k)).toNat = n / 2 ^ k % 256 := by
  rw [BitVec.toNat_ofInt]
  norm_cast

theorem toNat_ofInt_natCast (n : Nat) : (BitVec.ofInt 8 (n : Int)).toNat = n % 256 := by
  rw [BitVec.toNat_ofInt]
  norm_cast

/-- R32: a length is the sum of its eight big-endian bytes. -/
theorem int_eq_sum_of_bytes (l : Int) (h0 : 0 ≤ l) (h1 : l < 2 ^ 63) :
    l = (((BitVec.ofInt 8 (l / 2 ^ 56)).toNat * 2 ^ 56 + (BitVec.ofInt 8 (l / 2 ^ 48)).toNat * 2 ^ 48 +
      (BitVec.ofInt 8 (l / 2 ^ 40)).toNat * 2 ^ 40 + (BitVec.ofInt 8 (l / 2 ^ 32)).toNat * 2 ^ 32 +
      (BitVec.ofInt 8 (l / 2 ^ 24)).toNat * 2 ^ 24 + (BitVec.ofInt 8 (l / 2 ^ 16)).toNat * 2 ^ 16 +
      (BitVec.ofInt 8 (l / 2 ^ 8)).toNat * 2 ^ 8 + (BitVec.ofInt 8 l).toNat : Nat) : Int) := by
  obtain ⟨n, rfl⟩ := Int.eq_ofNat_of_zero_le h0
  have h : n < 2 ^ 63 := by exact_mod_cast h1
  simp only [toNat_ofInt_div_pow, toNat_ofInt_natCast]
  have e : ∀ k, n / 2 ^ (k + 8) = n / 2 ^ k / 256 := fun k => by
    rw [Nat.div_div_eq_div_mul, pow_add]
    norm_num
  refine congrArg Int.ofNat ?_
  have hb : n / 2 ^ 56 < 256 := Nat.div_lt_of_lt_mul (lt_trans h (by norm_num))
  have e1 : n / 2 ^ 8 = n / 256 := by norm_num
  have := nat_eq_base256_digits n (n / 2 ^ 8) (n / 2 ^ 16) (n / 2 ^ 24) (n / 2 ^ 32) (n / 2 ^ 40) (n / 2 ^ 48)
    (n / 2 ^ 56) e1 (e 8) (e 16) (e 24) (e 32) (e 40) (e 48) hb
  generalize n / 2 ^ 56 = a7 at *
  generalize n / 2 ^ 48 = a6 at *
  generalize n / 2 ^ 40 = a5 at *
  generalize n / 2 ^ 32 = a4 at *
  generalize n / 2 ^ 24 = a3 at *
  generalize n / 2 ^ 16 = a2 at *
  generalize n / 2 ^ 8 = a1 at *
  norm_num
  exact this

end Sys2Proof.Machine
end

