-- ==== Sys2Proof/Laws/State.lean ====
section
/-! SUPPORT. One lemma for each field and each state update, true by rfl, so that no later proof unfolds a record
update. -/
namespace Sys2Proof.Machine

section
variable (s : State) (k j : Nat) (c : Inst) (q : Sink) (e : Event)

@[simp] theorem setInst_insts : (s.setInst k c).insts = s.insts.set k c := rfl
@[simp] theorem setInst_sinks : (s.setInst k c).sinks = s.sinks := rfl
@[simp] theorem setInst_agenda : (s.setInst k c).agenda = s.agenda := rfl
@[simp] theorem setInst_turn : (s.setInst k c).turn = s.turn := rfl
@[simp] theorem setInst_trace : (s.setInst k c).trace = s.trace := rfl
@[simp] theorem setInst_draws : (s.setInst k c).draws = s.draws := rfl

@[simp] theorem setSink_insts : (s.setSink j q).insts = s.insts := rfl
@[simp] theorem setSink_sinks : (s.setSink j q).sinks = s.sinks.set j q := rfl
@[simp] theorem setSink_agenda : (s.setSink j q).agenda = s.agenda := rfl
@[simp] theorem setSink_turn : (s.setSink j q).turn = s.turn := rfl
@[simp] theorem setSink_trace : (s.setSink j q).trace = s.trace := rfl
@[simp] theorem setSink_draws : (s.setSink j q).draws = s.draws := rfl

@[simp] theorem emit_insts : (s.emit e).insts = s.insts := rfl
@[simp] theorem emit_sinks : (s.emit e).sinks = s.sinks := rfl
@[simp] theorem emit_agenda : (s.emit e).agenda = s.agenda := rfl
@[simp] theorem emit_turn : (s.emit e).turn = s.turn := rfl
@[simp] theorem emit_trace : (s.emit e).trace = s.trace ++ [e] := rfl
@[simp] theorem emit_draws : (s.emit e).draws = s.draws := rfl

@[simp] theorem toIdle_phase : c.toIdle.phase = .idle := rfl
@[simp] theorem toIdle_cur : c.toIdle.cur = none := rfl
@[simp] theorem toIdle_sink : c.toIdle.sink = c.sink := rfl
@[simp] theorem toIdle_port : c.toIdle.port = c.port := rfl
end

end Sys2Proof.Machine
end

