-- ==== Sys2Proof/Laws/Ops.lean ====
section
/-! SUPPORT. One lemma for each shared operation that says what it can do; proofs cite these instead of unfolding. -/
namespace Sys2Proof.Machine

/-! ## Acceptance -/

theorem latchDesc_of_le {h : Header} (hr : h.rsv ≤ 7) : latchDesc h = some (descOf h) := by
  simp [latchDesc, descOf, hr]

theorem latchDesc_of_gt {h : Header} (hr : 7 < h.rsv) : latchDesc h = none := by
  simp [latchDesc, Nat.not_le.mpr hr]

/-- An IDLE instance accepts a header description whose RSV is in range. -/
theorem accepting_idle {s : State} {h : Header} {c : Inst} {run : Inst → Desc → Result}
    (hc : IdleAt s s.turn c) (hr : h.rsv ≤ 7) : accepting s h run = run c (descOf h) := by
  simp [accepting, hc.1, hc.2, latchDesc_of_le hr]

/-- A busy instance holds the command. -/
theorem accepting_busy {s : State} {h : Header} {c : Inst} {run : Inst → Desc → Result}
    (hc : s.insts[s.turn]? = some c) (hp : c.phase ≠ .idle) : accepting s h run = .next s := by
  simp [accepting, hc, hp]

/-- Everything acceptance can do when it answers a next state. -/
theorem accepting_next {s t : State} {h : Header} {run : Inst → Desc → Result}
    (ht : accepting s h run = .next t) :
    (∃ c, s.insts[s.turn]? = some c ∧ c.phase ≠ .idle ∧ t = s) ∨
    (∃ c, IdleAt s s.turn c ∧ h.rsv ≤ 7 ∧ run c (descOf h) = .next t) := by
  unfold accepting at ht
  split at ht
  · cases ht
  · rename_i c hc
    split at ht
    · rename_i hp
      by_cases hr : h.rsv ≤ 7
      · rw [latchDesc_of_le hr] at ht
        exact .inr ⟨c, ⟨hc, hp⟩, hr, ht⟩
      · rw [latchDesc_of_gt (by omega)] at ht
        cases ht
    · rename_i hp
      cases ht
      exact .inl ⟨c, hc, hp, rfl⟩

/-! ## The end of a command -/

section
variable (k : Nat) (c : Inst) (r : Response) (e : ErrorKind) (s : State)

@[simp] theorem finish_insts : (finish k c r s).insts = s.insts.set k c.toIdle := rfl
@[simp] theorem finish_sinks : (finish k c r s).sinks = s.sinks := rfl
@[simp] theorem finish_agenda : (finish k c r s).agenda = s.agenda := rfl
@[simp] theorem finish_turn : (finish k c r s).turn = s.turn := rfl
@[simp] theorem finish_trace : (finish k c r s).trace = s.trace ++ [.respond k r] := rfl
@[simp] theorem finish_draws : (finish k c r s).draws = s.draws := rfl

/-- Taking an error is ending the command with the error's response (R98). -/
theorem raiseError_eq : raiseError k c e s = finish k c (errorResponse e) s := rfl

/-- The last answer of a writing command ends it, with the response that the answer calls for. -/
theorem finishWrite_eq (a : Answer) : finishWrite k c a s =
    finish k c (match a with | .ok => writtenResponse | .err e => errorResponse (.sinkFailure e)) s := by
  cases a <;> rfl
end

/-! ## Write calls -/

section
variable (j k : Nat) (c : Inst) (call : Call) (bytes : List Byte) (s : State)

@[simp] theorem receive_insts : (receive j call s).insts = s.insts := by unfold receive; split <;> rfl
@[simp] theorem receive_agenda : (receive j call s).agenda = s.agenda := by unfold receive; split <;> rfl
@[simp] theorem receive_turn : (receive j call s).turn = s.turn := by unfold receive; split <;> rfl
@[simp] theorem receive_trace : (receive j call s).trace = s.trace := by unfold receive; split <;> rfl
@[simp] theorem receive_draws : (receive j call s).draws = s.draws := by unfold receive; split <;> rfl

/-- A sink that receives a call appends it to its WLOG; no other sink changes. -/
@[simp] theorem receive_sinks : (receive j call s).sinks = received s.sinks (some j) call := by
  unfold receive received
  split
  · rename_i h
    apply List.ext_getElem? ; intro i
    rw [List.getElem?_modify]
    by_cases hi : j = i
    · subst hi; simp [h]
    · simp [hi]
  · rename_i q h
    apply List.ext_getElem? ; intro i
    rw [List.getElem?_modify]
    by_cases hi : j = i
    · subst hi
      obtain ⟨hlt, heq⟩ := List.getElem?_eq_some_iff.mp h
      simp [hlt, heq]
    · simp [hi]

@[simp] theorem sinkWrite_insts : (sinkWrite k c bytes s).insts = s.insts := by unfold sinkWrite; split <;> simp
@[simp] theorem sinkWrite_agenda : (sinkWrite k c bytes s).agenda = s.agenda := by unfold sinkWrite; split <;> simp
@[simp] theorem sinkWrite_turn : (sinkWrite k c bytes s).turn = s.turn := by unfold sinkWrite; split <;> simp
@[simp] theorem sinkWrite_draws : (sinkWrite k c bytes s).draws = s.draws := by unfold sinkWrite; split <;> simp
@[simp] theorem sinkWrite_trace : (sinkWrite k c bytes s).trace = s.trace ++ [.issue k bytes] := by
  unfold sinkWrite; split <;> simp
@[simp] theorem sinkWrite_sinks : (sinkWrite k c bytes s).sinks =
    received s.sinks c.sink { writer := .core k, bytes := bytes, answer := none } := by
  unfold sinkWrite; split <;> rename_i h
  · simp [received, h]
  · rw [receive_sinks, h]; rfl
end

/-- The place a write call gets is the length of the WLOG it is appended to. -/
theorem nextCall_eq {c : Inst} {s : State} {j : Nat} {q : Sink} (hj : c.sink = some j) (hq : s.sinks[j]? = some q) :
    nextCall c s = q.wlog.length := by
  simp [nextCall, hj, hq]

/-- The sink's side of an answer. -/
theorem settle_eq (q : Sink) (n : Nat) (call : Call) (r : Reply) : q.settle n call r = settled q n call r := by
  cases r <;> rfl

/-! ## Other failure values -/

section
variable (f : SinkError → SinkError) (s : State)

@[simp] theorem mapError_insts : (s.mapError f).insts = s.insts := rfl
@[simp] theorem mapError_sinks : (s.mapError f).sinks = s.sinks.map (Sink.mapError f) := rfl
@[simp] theorem mapError_agenda : (s.mapError f).agenda = s.agenda.map (Move.mapError f) := rfl
@[simp] theorem mapError_turn : (s.mapError f).turn = s.turn := rfl
@[simp] theorem mapError_trace : (s.mapError f).trace = s.trace.map (Event.mapError f) := rfl
@[simp] theorem mapError_draws : (s.mapError f).draws = s.draws := rfl
end

/-! ## Runs -/

theorem steps_zero (s : State) : steps 0 s = .next s := rfl

/-- A run goes on from the state that its first step answers. -/
theorem steps_succ {n : Nat} {s t : State} (h : step s = .next t) : steps (n + 1) s = steps n t := by
  simp [steps, h]

/-- A run that answers a next state has a first step that does. -/
theorem steps_succ_next {n : Nat} {s t : State} (h : steps (n + 1) s = .next t) :
    ∃ u, step s = .next u ∧ steps n u = .next t := by
  unfold steps at h
  split at h
  · exact ⟨_, ‹_›, h⟩
  · cases h
  · cases h

end Sys2Proof.Machine
end

