-- ==== Sys2Proof/Laws/PerInstr.lean ====
section
/-! SUPPORT. Per-instruction family OpField (R59, R61): the encoder puts every command's selector into CMD[127:126]. -/
namespace Sys2Proof

/-- CMD[127:126] of a word that is the encoder's. -/
theorem cmdOp_encode (i : Instr) : cmdOp (encode i) = opCode i.op := by
  unfold cmdOp encode
  apply BitVec.eq_of_getLsbD_eq
  intro n hn
  simp only [BitVec.getLsbD_extractLsb', BitVec.getLsbD_append]
  interval_cases n <;> simp

end Sys2Proof

/-- R61: the OP field of the command's word selects the command's operation. -/
def Sys2Proof.Laws.OpField.Statement (i : Sys2Proof.Instr) : Prop :=
  Sys2Proof.opOfCode (Sys2Proof.cmdOp (Sys2Proof.encode i)) = i.op

theorem Sys2Proof.Laws.OpField.size (h : Sys2Proof.Header) : Sys2Proof.Laws.OpField.Statement (.size h) := by
  unfold Sys2Proof.Laws.OpField.Statement
  rw [Sys2Proof.cmdOp_encode]; rfl

theorem Sys2Proof.Laws.OpField.encode (h : Sys2Proof.Header) : Sys2Proof.Laws.OpField.Statement (.encode h) := by
  unfold Sys2Proof.Laws.OpField.Statement
  rw [Sys2Proof.cmdOp_encode]; rfl

theorem Sys2Proof.Laws.OpField.writeHeader (h : Sys2Proof.Header) :
    Sys2Proof.Laws.OpField.Statement (.writeHeader h) := by
  unfold Sys2Proof.Laws.OpField.Statement
  rw [Sys2Proof.cmdOp_encode]; rfl

theorem Sys2Proof.Laws.OpField.writeFrame (h : Sys2Proof.Header) (payload : List Sys2Proof.Byte) :
    Sys2Proof.Laws.OpField.Statement (.writeFrame h payload) := by
  unfold Sys2Proof.Laws.OpField.Statement
  rw [Sys2Proof.cmdOp_encode]; rfl
end

