-- ==== Sys2Proof/Laws/Step.lean ====
section
/-! SUPPORT. What fetching and the sink-answer step can do, said once. -/
namespace Sys2Proof.Machine

/-- An IDLE instance takes the request at its port. -/
theorem fetch_command {s : State} {k : Nat} {c : Inst} {r : Request} {more : List Request}
    (hc : IdleAt s k c) (hp : c.port = r :: more) :
    fetch k s = .command (decode r.cmd r.payload) (takeRequest k c r more s) := by
  simp [fetch, hc.1, hp, Inst.ready, hc.2]

/-- An instance waits for the answer to exactly one call. -/
theorem waitsFor_iff {c : Inst} {j n : Nat} :
    waitsFor c j n = true ↔ c.sink = some j ∧ c.phase ≠ .idle ∧ ∃ cur, c.cur = some cur ∧ cur.call = n := by
  unfold waitsFor
  simp [and_assoc]

/-- An instance that is IDLE waits for no answer. -/
theorem waitsFor_idle {c : Inst} {j n : Nat} (h : c.phase = .idle) : waitsFor c j n = false := by
  simp [waitsFor, h]

/-- Everything the sink's side of an answer can do. -/
theorem sinkAnswer_next {j n : Nat} {r : Reply} {s t : State} (h : sinkAnswer j n r s = .next t) :
    ∃ q call, s.sinks[j]? = some q ∧ q.wlog[n]? = some call ∧ call.answer = none ∧
      t = deliverAnswer call.writer j n r.seen (s.setSink j (settled q n call r)) := by
  unfold sinkAnswer at h
  split at h
  · cases h
  · rename_i q hq
    split at h
    · cases h
    · rename_i call hcall
      split at h
      · cases h
      · rename_i ha
        cases h
        exact ⟨q, call, hq, hcall, ha, by rw [settle_eq]⟩

/-- An answer reaches no instance, or the one that waits for it. -/
theorem deliverAnswer_cases (w : Writer) (j n : Nat) (r : Answer) (s : State) :
    deliverAnswer w j n r s = s ∨
    ∃ k c, w = .core k ∧ s.insts[k]? = some c ∧ waitsFor c j n = true ∧
      deliverAnswer w j n r s = coreAnswer k c r s := by
  cases w with
  | other => exact .inl rfl
  | core k =>
    unfold deliverAnswer
    cases h : s.insts[k]? with
    | none => simp [h]
    | some c =>
      by_cases hw : waitsFor c j n = true
      · exact .inr ⟨k, c, rfl, h, hw, by simp [h, hw]⟩
      · exact .inl (by simp [h, hw])

/-- The answer to a call that its issuer does not await reaches no instance. -/
theorem deliverAnswer_notAwaited {k j n : Nat} {r : Answer} {s : State}
    (h : ∀ c, s.insts[k]? = some c → waitsFor c j n = false) : deliverAnswer (.core k) j n r s = s := by
  rcases deliverAnswer_cases (.core k) j n r s with e | ⟨k', c, hk, hc, hw, -⟩
  · exact e
  · cases hk
    rw [h c hc] at hw
    cases hw

end Sys2Proof.Machine
end

