-- ==== Sys2Proof/Laws/Syntax.lean ====
section
/-! SUPPORT. What the accessors of a command give for each constructor, true by rfl. -/
namespace Sys2Proof

section
variable (h : Header) (p : List Byte)

@[simp] theorem header_size : (Instr.size h).header = h := rfl
@[simp] theorem header_encode : (Instr.encode h).header = h := rfl
@[simp] theorem header_writeHeader : (Instr.writeHeader h).header = h := rfl
@[simp] theorem header_writeFrame : (Instr.writeFrame h p).header = h := rfl

@[simp] theorem op_size : (Instr.size h).op = .size := rfl
@[simp] theorem op_encode : (Instr.encode h).op = .encode := rfl
@[simp] theorem op_writeHeader : (Instr.writeHeader h).op = .writeHeader := rfl
@[simp] theorem op_writeFrame : (Instr.writeFrame h p).op = .writeFrame := rfl

@[simp] theorem payload_size : (Instr.size h).payload = [] := rfl
@[simp] theorem payload_encode : (Instr.encode h).payload = [] := rfl
@[simp] theorem payload_writeHeader : (Instr.writeHeader h).payload = [] := rfl
@[simp] theorem payload_writeFrame : (Instr.writeFrame h p).payload = p := rfl
end

end Sys2Proof
end

