-- ==== Sys2Proof/Tests/Slice0.lean ====
section
/-! SUPPORT. Tests with expected results from spec/95_test_vectors.md and the rules cited, and one witness for the
hypotheses of each statement. -/
namespace Sys2Proof.Machine.Tests

/-! ## Well-formedness: an ill-formed term for each check -/

def plainHeader (len : BitVec 64) : Header :=
  { fin := true, rsv := 0, opc := 2, masked := false, key := ⟨0, 0, 0, 0⟩, len := len }

theorem test_wellFormed_accepts : (Instr.size { plainHeader 0 with rsv := 7, opc := 15 }).wellFormed = true := by decide
theorem test_wellFormed_refuses_rsv_8 : (Instr.encode { plainHeader 0 with rsv := 8 }).wellFormed = false := by decide
theorem test_wellFormed_refuses_opc_16 : (Instr.writeFrame { plainHeader 0 with opc := 16 } []).wellFormed = false := by
  decide

/-! ## Decoding: words written out field by field from R59 -/

/-- OP=00 RES0=111111 FIN=1 RSV=101 OPC=1010 MASKED=1 RES0 all ones KEY LEN. -/
theorem test_decode_size :
    decode (0b00#2 ++ 0b111111#6 ++ 0b1#1 ++ 0b101#3 ++ 0b1010#4 ++ 0b1#1 ++ 0x7FFF#15
      ++ 0x11#8 ++ 0x22#8 ++ 0x33#8 ++ 0x44#8 ++ 0x0102030405060708#64) [0xAA] =
    .size { fin := true, rsv := 5, opc := 10, masked := true, key := ⟨0x11, 0x22, 0x33, 0x44⟩
            len := 0x0102030405060708#64 } := by decide

theorem test_decode_encode :
    decode (0b01#2 ++ 0b000000#6 ++ 0b0#1 ++ 0b001#3 ++ 0b1000#4 ++ 0b0#1 ++ 0x0000#15
      ++ 0xDE#8 ++ 0xAD#8 ++ 0xBE#8 ++ 0xEF#8 ++ 0xFFFFFFFFFFFFFFFF#64) [0xAA] =
    .encode { fin := false, rsv := 1, opc := 8, masked := false, key := ⟨0xDE, 0xAD, 0xBE, 0xEF⟩
              len := 0xFFFFFFFFFFFFFFFF#64 } := by decide

theorem test_decode_writeHeader :
    decode (0b10#2 ++ 0b000000#6 ++ 0b1#1 ++ 0b100#3 ++ 0b0001#4 ++ 0b1#1 ++ 0x0000#15
      ++ 0x01#8 ++ 0x02#8 ++ 0x03#8 ++ 0x04#8 ++ 200#64) [0xAA] =
    .writeHeader { fin := true, rsv := 4, opc := 1, masked := true, key := ⟨1, 2, 3, 4⟩, len := 200#64 } := by decide

theorem test_decode_writeFrame :
    decode (0b11#2 ++ 0b000000#6 ++ 0b0#1 ++ 0b010#3 ++ 0b0100#4 ++ 0b0#1 ++ 0x0000#15
      ++ 0x00#8 ++ 0x00#8 ++ 0x00#8 ++ 0x00#8 ++ 2#64) [0xAA, 0xBB] =
    .writeFrame { fin := false, rsv := 2, opc := 4, masked := false, key := ⟨0, 0, 0, 0⟩, len := 2#64 }
      [0xAA, 0xBB] := by decide

/-- V-M7's word as bytes W0 to W15, and a sequence that is no word. -/
theorem test_decodeBytes :
    (decodeBytes [0x40, 0x02, 0x80, 0x00, 0x01, 0x02, 0x03, 0x04, 0, 0, 0, 0, 0, 0, 0, 0xC8] []).toOption =
      some (.encode { plainHeader 200 with fin := false, masked := true, key := ⟨1, 2, 3, 4⟩ }) ∧
    decodeBytes [0x40, 0x02] [] = .error (.notSixteenBytes 2) := by decide

theorem test_table_rows :
    (decodeTableWord 128 0x00000000000000000000000000000000).map Instr.op = some .size ∧
    (decodeTableWord 128 0x40000000000000000000000000000000).map Instr.op = some .encode ∧
    (decodeTableWord 128 0x80000000000000000000000000000000).map Instr.op = some .writeHeader ∧
    (decodeTableWord 128 0xC0000000000000000000000000000000).map Instr.op = some .writeFrame := by decide

/-! ## Single steps -/

/-- The reset system with one command word and payload at its port and the given moves to come. -/
def ready (w : CmdWord) (p : List Byte) (moves : List Move) : State :=
  { State.reset with
    insts := [{ Inst.fresh (some 0) with port := [{ cmd := w, payload := p }] }]
    agenda := moves }

/-- The responses of a run, as response words. -/
def answersOf (r : Result) : List RspWord :=
  match r with
  | .next t => t.trace.filterMap fun e => match e with
    | .respond _ r => some (responseWord r)
    | _ => none
  | _ => []

/-- RSIZE and RHDR of the responses of a run. -/
def headersOf (r : Result) : List (BitVec 4 × List Byte) :=
  match r with
  | .next t => t.trace.filterMap fun e => match e with
    | .respond _ r => some (r.rsize, r.rhdr.toList)
    | _ => none
  | _ => []

/-- OUT of sink 0, the bytes of its calls, and PHASE of instance 0. -/
def sinkOf (r : Result) : Option (List Byte × List (List Byte) × List Phase) :=
  match r with
  | .next t => some (t.outOf 0, (t.wlogOf 0).map Call.bytes, t.insts.map Inst.phase)
  | _ => none

/-- V-S10. -/
theorem test_size_masked :
    answersOf (step (ready 0x00028000_01020304_00000000_000000C8#128 [] [.accept 0])) =
      [0x20000000_00000000_00000000_00000000#128] := by decide

/-- V-S14: the most negative length. -/
theorem test_size_negative :
    answersOf (step (ready 0x00028000_00000000_80000000_00000000#128 [] [.accept 0])) =
      [0x40000000_00000000_00000000_00000000#128] := by decide

/-- V-M6: RSP 380082FF_7FFFFFFF_FFFFFFFF_DEADBEEF. -/
theorem test_encode_longest :
    headersOf (step (ready 0x40828000_DEADBEEF_7FFFFFFF_FFFFFFFF#128 [] [.accept 0])) =
      [(14, [0x82, 0xFF, 0x7F, 0xFF, 0xFF, 0xFF, 0xFF, 0xFF, 0xFF, 0xFF, 0xDE, 0xAD, 0xBE, 0xEF])] := by decide

/-- V-E6 and V-E7: both sides of the 65535 boundary. -/
theorem test_encode_boundary :
    answersOf (step (ready 0x40820000_00000000_00000000_0000FFFF#128 [] [.accept 0])) =
      [0x1000827E_FFFF0000_00000000_00000000#128] ∧
    answersOf (step (ready 0x40820000_00000000_00000000_00010000#128 [] [.accept 0])) =
      [0x2800827F_00000000_00010000_00000000#128] := by decide

/-- V-H1, V-H5: the call is issued, OUT is empty until the sink answers, and the instance waits. -/
theorem test_writeHeader_issues :
    sinkOf (step (ready 0x80020000_00000000_00000000_000000C8#128 [] [.accept 0])) =
      some ([], [[0x02, 0x7E, 0x00, 0xC8]], [.waitHdr]) := by decide

/-- V-H2, with two of the four bytes delivered before the failure. -/
theorem test_writeHeader_fails :
    let r := steps 2 (ready 0x80020000_00000000_00000000_000000C8#128 [] [.accept 0, .answer 0 0 (.err Config.someError 2)])
    answersOf r = [0x80000000_00000000_00000000_00000000#128] ∧
    sinkOf r = some ([0x02, 0x7E], [[0x02, 0x7E, 0x00, 0xC8]], [.idle]) := by decide

/-- V-F1: no call at all. -/
theorem test_writeFrame_negative :
    let r := step (ready 0xC0020000_00000000_FFFFFFFF_FFFFFFFF#128 [1, 2] [.accept 0])
    answersOf r = [0x40000000_00000000_00000000_00000000#128] ∧ sinkOf r = some ([], [], [.idle]) := by decide

/-- V-F7: masked header, payload sent unmasked, two calls. -/
theorem test_writeFrame_masked :
    let r := steps 3 (ready 0xC0828000_AABBCCDD_00000000_00000003#128 [0x61, 0x62, 0x63]
      [.accept 0, .answer 0 0 .ok, .answer 0 1 .ok])
    answersOf r = [0#128] ∧
    sinkOf r = some ([0x82, 0x83, 0xAA, 0xBB, 0xCC, 0xDD, 0x61, 0x62, 0x63],
      [[0x82, 0x83, 0xAA, 0xBB, 0xCC, 0xDD], [0x61, 0x62, 0x63]], [.idle]) := by decide

/-- V-R2 with the sink completing the abandoned call: no response, OUT gains the header. -/
theorem test_reset_abandons :
    let r := steps 3 (ready 0x80020000_00000000_00000000_000000C8#128 [] [.accept 0, .reset 0, .answer 0 0 .ok])
    answersOf r = [] ∧ sinkOf r = some ([0x02, 0x7E, 0x00, 0xC8], [[0x02, 0x7E, 0x00, 0xC8]], [.idle]) := by decide

/-- R111: the late answer to an abandoned call, when a newer command's call is already awaited, is ignored. -/
theorem test_late_answer_is_ignored :
    let w := 0x80020000_00000000_00000000_000000C8#128
    let r := steps 4 { ready w [] [.accept 0, .reset 0, .accept 0, .answer 0 0 (.err Config.someError 0)] with
      insts := [{ Inst.fresh (some 0) with port := [{ cmd := w, payload := [] }, { cmd := w, payload := [] }] }] }
    answersOf r = [] ∧
    sinkOf r = some ([], [[0x02, 0x7E, 0x00, 0xC8], [0x02, 0x7E, 0x00, 0xC8]], [.waitHdr]) := by decide

/-- A call that is already answered has no second answer (R35). -/
theorem test_second_answer_faults :
    (match steps 3 (ready 0x80020000_00000000_00000000_000000C8#128 [] [.accept 0, .answer 0 0 .ok, .answer 0 0 .ok]) with
      | .fault f => some f
      | _ => none) = some .noCall := by decide

/-- The host's way in: the word placed is the next command that runs. -/
theorem test_withFetchWord :
    answersOf (step (State.reset.withFetchWord 128 0x0081000000000000000000000000000A)) =
      [0x08000000_00000000_00000000_00000000#128] := by decide

/-! ## The textual form -/

/-- P3, command 2, and its word. -/
theorem test_assemble_writeFrame :
    (assemble "WRITE_FRAME fin=1, rsv=0, opc=2, masked=1, key=AA:BB:CC:DD, len=3, payload=[CB D9 AF]").map requestOf =
      .ok { cmd := 0xC0828000_AABBCCDD_00000000_00000003#128, payload := [0xCB, 0xD9, 0xAF] } := by decide

/-- R69: `0x` gives the raw pattern, fields may stand in any order, and the key defaults to 0. -/
theorem test_assemble_hex_length :
    (assemble "SIZE len=0xFFFFFFFFFFFFFFFF, fin=0, masked=0, rsv=0, opc=2").map encode =
      .ok 0x00020000_00000000_FFFFFFFF_FFFFFFFF#128 := by decide

/-- R69: payload is accepted only on WRITE_FRAME, no field twice, none missing, RSV at most 7. -/
theorem test_assemble_errors :
    assemble "ENCODE fin=1, rsv=0, opc=2, masked=0, len=5, payload=[]" = .error .payloadNotAccepted ∧
    assemble "ENCODE fin=1, fin=1, rsv=0, opc=2, masked=0, len=5" = .error .duplicateField ∧
    assemble "ENCODE fin=1, rsv=0, opc=2, masked=0" = .error .missingField ∧
    assemble "ENCODE fin=1, rsv=8, opc=2, masked=0, len=5" = .error .badValue := by decide

/-! ## Witnesses: a concrete state and operands that meet the hypotheses of each statement -/

/-- Descriptor and HBUF of a masked 16-bit header, as V-M3 has them: a boundary of the second tier. -/
def waitDesc : Desc := { fin := true, rsv := 0, opc := 2, masked := true, key := ⟨0xDE, 0xAD, 0xBE, 0xEF⟩, len := 126#64 }

def waitBuf : HBuf := #v[0x82, 0xFE, 0x00, 0x7E, 0xDE, 0xAD, 0xBE, 0xEF, 9, 9, 9, 9, 9, 9]

def waitCur (op : Op) (payload : Option (List Byte)) (call : Nat) : Cur :=
  { op := op, desc := waitDesc, payload := payload, hbuf := waitBuf, hlen := 8, call := call }

def waitInst (phase : Phase) (cur : Cur) : Inst := { phase := phase, cur := some cur, sink := some 0, port := [] }

/-- The header call of `waitDesc` by instance 0. -/
def hdrCall (a : Option Answer) : Call :=
  { writer := .core 0, bytes := [0x82, 0xFE, 0x00, 0x7E, 0xDE, 0xAD, 0xBE, 0xEF], answer := a }

def payCall : Call := { writer := .core 0, bytes := [7], answer := none }

/-- Instance 0 in WAIT_HDR. -/
def inWaitHdr (op : Op) (payload : Option (List Byte)) (moves : List Move) : State :=
  { State.reset with
    insts := [waitInst .waitHdr (waitCur op payload 0)]
    sinks := [{ out := [], wlog := [hdrCall none] }]
    agenda := moves }

/-- Instance 0 in WAIT_PAY, its header call answered `Ok`. -/
def inWaitPay (moves : List Move) : State :=
  { State.reset with
    insts := [waitInst .waitPay (waitCur .writeFrame (some [7]) 1)]
    sinks := [{ out := (hdrCall none).bytes, wlog := [hdrCall (some .ok), payCall] }]
    agenda := moves }

theorem waits_hdr (op : Op) (p : Option (List Byte)) (m : List Move) :
    WaitingAt (inWaitHdr op p m) 0 0 (waitInst .waitHdr (waitCur op p 0)) (waitCur op p 0)
      { out := [], wlog := [hdrCall none] } :=
  ⟨rfl, rfl, rfl, rfl, rfl⟩

theorem waits_pay (m : List Move) :
    WaitingAt (inWaitPay m) 0 0 (waitInst .waitPay (waitCur .writeFrame (some [7]) 1)) (waitCur .writeFrame (some [7]) 1)
      { out := (hdrCall none).bytes, wlog := [hdrCall (some .ok), payCall] } :=
  ⟨rfl, rfl, rfl, rfl, rfl⟩

theorem idle_reset : IdleAt State.reset State.reset.turn (Inst.fresh (some 0)) := ⟨rfl, rfl⟩

theorem witness_DecodeOfEncodeIsTheCommand :
    (Instr.writeFrame { plainHeader 5 with rsv := 7, opc := 15 } [1]).wellFormed = true := by decide

theorem witness_Res0BitsAreIgnored :
    (0x3F817FFF_00000000_00000000_0000000A#128) &&& usedBits = 0x00810000_00000000_00000000_0000000A#128 &&& usedBits := by
  decide

theorem witness_OpFieldSelectsTheOperation :
    (0x00#128).extractLsb' 126 2 = 0#2 ∧ (0x40000000_00000000_00000000_00000000#128).extractLsb' 126 2 = 1#2 ∧
    (0x80000000_00000000_00000000_00000000#128).extractLsb' 126 2 = 2#2 ∧
    (0xC0000000_00000000_00000000_00000000#128).extractLsb' 126 2 = 3#2 := by decide

theorem witness_PayloadPortIsTakenOnlyByWriteFrame :
    (0xC0000000_00000000_00000000_00000000#128).extractLsb' 126 2 = 3#2 ∧ (0x00#128).extractLsb' 126 2 ≠ 3#2 := by decide

theorem witness_AssembledLineDecodesToItsCommand :
    assemble "SIZE fin=1, rsv=7, opc=15, masked=0, len=10" = .ok (.size { plainHeader 10 with rsv := 7, opc := 15 }) := by
  decide

theorem witness_SizeAndEncoderAgree :
    headerSize waitDesc = some 8 ∧ headerSize { waitDesc with len := -1#64 } = none ∧
    (encodeHeader waitDesc zeroHdr).map Prod.snd = some 8 := by decide

theorem witness_EncoderWritesTheWireFormat :
    (0 : Int) ≤ waitDesc.len.toInt ∧ ({ waitDesc with len := -1#64 } : Desc).len.toInt < 0 := by decide

/-- Both the cell kept (8) and the last one (13). -/
theorem witness_EncoderKeepsTheUnusedCells :
    encodeHeader waitDesc (Vector.replicate 14 9#8) = some (waitBuf, 8) ∧ ((8 : Fin 15).val ≤ (8 : Fin 14).val) ∧
    ((8 : Fin 15).val ≤ (13 : Fin 14).val) := by decide

theorem witness_ReaderFindsTheHeaderLength : encodeHeader waitDesc (Vector.replicate 14 9#8) = some (waitBuf, 8) := by
  decide

/-- A header in each of the three length forms. -/
theorem witness_HeadersUseTheShortestLengthForm :
    (encodeHeader { waitDesc with len := 125#64 } zeroHdr).map (fun b => (b.1[1].extractLsb' 0 7).toNat) = some 125 ∧
    (encodeHeader { waitDesc with len := 126#64 } zeroHdr).map (fun b => (b.1[1].extractLsb' 0 7).toNat) = some 126 ∧
    (encodeHeader { waitDesc with len := 65536#64 } zeroHdr).map (fun b => (b.1[1].extractLsb' 0 7).toNat) = some 127 := by
  decide

theorem witness_SizeAnswersTheHeaderSize :
    IdleAt State.reset State.reset.turn (Inst.fresh (some 0)) ∧ ({ plainHeader 125 with rsv := 7 } : Header).rsv ≤ 7 ∧
    (0x00#128).extractLsb' 126 2 = 0#2 := ⟨idle_reset, by decide, by decide⟩

theorem witness_EncodeAnswersTheHeaderBytes :
    IdleAt State.reset State.reset.turn (Inst.fresh (some 0)) ∧ ({ plainHeader 126 with rsv := 7 } : Header).rsv ≤ 7 ∧
    (0x40000000_00000000_00000000_00000000#128).extractLsb' 126 2 = 1#2 := ⟨idle_reset, by decide, by decide⟩

theorem witness_WriteHeaderIssuesTheHeader :
    IdleAt State.reset State.reset.turn (Inst.fresh (some 0)) ∧ (plainHeader 65536).rsv ≤ 7 ∧
    (0 : Int) ≤ (plainHeader 65536).len.toInt ∧ (plainHeader (-1#64)).len.toInt < 0 ∧
    (0x80000000_00000000_00000000_00000000#128).extractLsb' 126 2 = 2#2 :=
  ⟨idle_reset, by decide, by decide, by decide, by decide⟩

theorem witness_WriteFrameIssuesTheHeader :
    IdleAt State.reset State.reset.turn (Inst.fresh (some 0)) ∧ (plainHeader 0).rsv ≤ 7 ∧
    (0 : Int) ≤ (plainHeader 0).len.toInt ∧ (plainHeader (-1#64)).len.toInt < 0 ∧
    (0xC0000000_00000000_00000000_00000000#128).extractLsb' 126 2 = 3#2 :=
  ⟨idle_reset, by decide, by decide, by decide, by decide⟩

theorem witness_NegativeLengthWritesNothing :
    IdleAt State.reset State.reset.turn (Inst.fresh (some 0)) ∧ (Instr.encode (plainHeader (-1#64))).header.rsv ≤ 7 ∧
    (Instr.encode (plainHeader (-1#64))).header.len.toInt < 0 := ⟨idle_reset, by decide, by decide⟩

theorem witness_BusyInstanceHoldsTheCommand :
    (waitInst .waitHdr (waitCur .writeHeader none 0)).phase ≠ .idle ∧
    (inWaitHdr .writeHeader none [.accept 0]).insts[(inWaitHdr .writeHeader none [.accept 0]).turn]? =
      some (waitInst .waitHdr (waitCur .writeHeader none 0)) ∧
    (inWaitHdr .writeHeader none [.accept 0]).agenda = .accept 0 :: [] := ⟨by decide, rfl, rfl⟩

theorem witness_IntegerFieldRanges :
    IdleAt State.reset State.reset.turn (Inst.fresh (some 0)) ∧ 7 < (Instr.size { plainHeader 0 with rsv := 8 }).header.rsv :=
  ⟨idle_reset, by decide⟩

theorem witness_EveryCommandWordRuns : IdleAt State.reset State.reset.turn (Inst.fresh (some 0)) := idle_reset

theorem witness_KeyIsIgnoredWhenUnmasked :
    IdleAt State.reset State.reset.turn (Inst.fresh (some 0)) ∧ (Instr.writeHeader (plainHeader 5)).header.masked = false ∧
    ∃ t, exec (.writeHeader (plainHeader 5)) State.reset = .next t := ⟨idle_reset, rfl, _, rfl⟩

theorem witness_SizeAndEncodeFrame :
    (∃ t, exec (.size (plainHeader 5)) State.reset = .next t) ∧ ∃ t, exec (.encode (plainHeader 5)) State.reset = .next t :=
  ⟨⟨_, rfl⟩, ⟨_, rfl⟩⟩

theorem witness_WriteAcceptanceFrame :
    (∃ t, exec (.writeHeader (plainHeader 5)) State.reset = .next t) ∧
    ∃ t, exec (.writeFrame (plainHeader 5) [1]) State.reset = .next t := ⟨⟨_, rfl⟩, ⟨_, rfl⟩⟩

/-- Instance 0 acts; instance 1 is not concerned. -/
theorem witness_InstancesShareNoState :
    ¬ concerns (State.system 1 [some 0, some 0]) 1 (.reset 0) ∧
    ∃ t, step { State.system 1 [some 0, some 0] with agenda := [.reset 0] } = .next t :=
  ⟨by simp [concerns], _, rfl⟩

theorem witness_SinksOnlyGrow :
    (∃ t, step (inWaitPay [.answer 0 1 .ok]) = .next t) ∧ ((inWaitPay []).wlogOf 0)[0]? = some (hdrCall (some .ok)) :=
  ⟨⟨_, rfl⟩, rfl⟩

theorem witness_WriteHeaderEndsWithTheAnswer :
    WaitingAt (inWaitHdr .writeHeader none [.answer 0 0 (.err Config.someError 14)]) 0 0
      (waitInst .waitHdr (waitCur .writeHeader none 0)) (waitCur .writeHeader none 0)
      { out := [], wlog := [hdrCall none] } ∧
    (waitInst .waitHdr (waitCur .writeHeader none 0)).phase = .waitHdr ∧ (waitCur .writeHeader none 0).op = .writeHeader :=
  ⟨waits_hdr _ _ _, rfl, rfl⟩

/-- The empty payload of R92. -/
theorem witness_WriteFrameHeaderAnswer_ok :
    WaitingAt (inWaitHdr .writeFrame (some []) [.answer 0 0 .ok]) 0 0
      (waitInst .waitHdr (waitCur .writeFrame (some []) 0)) (waitCur .writeFrame (some []) 0)
      { out := [], wlog := [hdrCall none] } ∧
    (waitCur .writeFrame (some []) 0).op = .writeFrame ∧ (waitCur .writeFrame (some []) 0).payload = some [] :=
  ⟨waits_hdr _ _ _, rfl, rfl⟩

theorem witness_WriteFrameHeaderAnswer_err :
    WaitingAt (inWaitHdr .writeFrame (some [7]) [.answer 0 0 (.err Config.someError 8)]) 0 0
      (waitInst .waitHdr (waitCur .writeFrame (some [7]) 0)) (waitCur .writeFrame (some [7]) 0)
      { out := [], wlog := [hdrCall none] } ∧
    (waitCur .writeFrame (some [7]) 0).op = .writeFrame ∧ (waitCur .writeFrame (some [7]) 0).payload = some [7] ∧
    (inWaitHdr .writeFrame (some [7]) [.answer 0 0 (.err Config.someError 8)]).agenda =
      .answer 0 (waitCur .writeFrame (some [7]) 0).call (.err Config.someError 8) :: [] := ⟨waits_hdr _ _ _, rfl, rfl, rfl⟩

theorem witness_WriteFrameEndsWithThePayloadAnswer :
    WaitingAt (inWaitPay [.answer 0 1 .ok]) 0 0 (waitInst .waitPay (waitCur .writeFrame (some [7]) 1))
      (waitCur .writeFrame (some [7]) 1) { out := (hdrCall none).bytes, wlog := [hdrCall (some .ok), payCall] } ∧
    (waitInst .waitPay (waitCur .writeFrame (some [7]) 1)).phase = .waitPay ∧
    (waitCur .writeFrame (some [7]) 1).payload = some [7] := ⟨waits_pay _, rfl, rfl⟩

theorem witness_OkAppendsTheWholeCall :
    (inWaitPay [.answer 0 1 (.err Config.someError 0)]).sinks[0]? =
      some { out := (hdrCall none).bytes, wlog := [hdrCall (some .ok), payCall] } ∧
    ∃ t, step (inWaitPay [.answer 0 1 (.err Config.someError 0)]) = .next t := ⟨rfl, _, rfl⟩

theorem witness_ResetLeavesTheInstanceIdle :
    (inWaitPay [.reset 0]).agenda = .reset 0 :: [] ∧
    (inWaitPay [.reset 0]).insts[0]? = some (waitInst .waitPay (waitCur .writeFrame (some [7]) 1)) := ⟨rfl, rfl⟩

/-- The reset, and a run of two steps from it. -/
theorem witness_ResetAbandonsTheCommand_reset :
    WaitingAt (inWaitPay [.reset 0, .answer 0 1 .ok]) 0 0 (waitInst .waitPay (waitCur .writeFrame (some [7]) 1))
      (waitCur .writeFrame (some [7]) 1) { out := (hdrCall none).bytes, wlog := [hdrCall (some .ok), payCall] } ∧
    (waitInst .waitPay (waitCur .writeFrame (some [7]) 1)).phase ≠ .idle ∧
    ∃ t, steps 2 (inWaitPay [.reset 0, .answer 0 1 .ok]) = .next t := ⟨waits_pay _, by decide, _, rfl⟩

/-- The late answer: instance 0 waits for a newer call, at place 1, and the abandoned one is at place 0. -/
theorem witness_ResetAbandonsTheCommand_late :
    let s : State := { State.reset with
      insts := [waitInst .waitHdr (waitCur .writeHeader none 1)]
      sinks := [{ out := [], wlog := [hdrCall none, hdrCall none] }]
      agenda := [.answer 0 0 (.err Config.someError 8)] }
    NotAwaited s 0 0 0 ∧ s.sinks[0]? = some { out := [], wlog := [hdrCall none, hdrCall none] } ∧
    (hdrCall none).writer = .core 0 ∧ (hdrCall none).answer = none := by
  refine ⟨⟨by decide, fun c h => ?_⟩, rfl, rfl, rfl⟩
  cases h
  decide

theorem witness_ResetValues : Inst.fresh none ∈ (State.system 0 [none]).insts := by decide

/-- A waiting instance, and moves that do not concern it. -/
theorem witness_UnansweredInstanceWaitsForEver :
    (inWaitPay [.accept 0, .otherWrite 0 [1]]).insts[0]? = some (waitInst .waitPay (waitCur .writeFrame (some [7]) 1)) ∧
    Move.reset 0 ∉ (inWaitPay [.accept 0, .otherWrite 0 [1]]).agenda ∧
    (∀ j r, Move.answer j 1 r ∉ (inWaitPay [.accept 0, .otherWrite 0 [1]]).agenda) ∧
    ∃ t, steps 2 (inWaitPay [.accept 0, .otherWrite 0 [1]]) = .next t :=
  ⟨rfl, by decide, by simp [inWaitPay], _, rfl⟩

theorem witness_StepRunsTheDecodedCommand :
    IdleAt (ready 0#128 [1] [.accept 0]) 0 { Inst.fresh (some 0) with port := [{ cmd := 0#128, payload := [1] }] } ∧
    (ready 0#128 [1] [.accept 0]).agenda = .accept 0 :: [] := ⟨⟨rfl, rfl⟩, rfl⟩

theorem witness_NothingMovesOnAnEmptyAgenda : (inWaitPay []).agenda = [] := rfl

/-- A length of 0 with a payload of one byte, and a negative length; the agenda of each clause is a free choice. -/
theorem witness_WriteFrameMakesTwoOneOrNoCalls :
    let w := 0xC0000000_00000000_00000000_00000000#128
    (∀ m, IdleAt (ready w [1] m) 0 { Inst.fresh (some 0) with port := [{ cmd := w, payload := [1] }] }) ∧
    (∀ m, (ready w [1] m).sinks[0]? = some Sink.fresh) ∧
    (ready w [1] [.accept 0, .answer 0 0 .ok, .answer 0 1 .ok]).agenda =
      .accept 0 :: .answer 0 Sink.fresh.wlog.length .ok :: .answer 0 (Sink.fresh.wlog.length + 1) .ok :: [] ∧
    (ready w [1] [.accept 0, .answer 0 0 .ok, .answer 0 1 (.err Config.someError 1)]).agenda =
      .accept 0 :: .answer 0 Sink.fresh.wlog.length .ok ::
        .answer 0 (Sink.fresh.wlog.length + 1) (.err Config.someError 1) :: [] ∧
    (ready w [1] [.accept 0, .answer 0 0 (.err Config.someError 2)]).agenda =
      .accept 0 :: .answer 0 Sink.fresh.wlog.length (.err Config.someError 2) :: [] ∧ w.extractLsb' 126 2 = 3#2 ∧ 0 ≤ (w.extractLsb' 0 64).toInt ∧
    ((0xC0000000_00000000_80000000_00000000#128).extractLsb' 0 64).toInt < 0 := by
  refine ⟨fun _ => ⟨rfl, rfl⟩, fun _ => rfl, rfl, rfl, rfl, ?_⟩
  decide

theorem witness_AnotherWriterCanSplitAFrame :
    let w := 0xC0000000_00000000_00000000_00000000#128
    IdleAt (ready w [1] [.accept 0, .answer 0 0 .ok, .otherWrite 0 [5], .answer 0 2 .ok, .answer 0 1 .ok]) 0
      { Inst.fresh (some 0) with port := [{ cmd := w, payload := [1] }] } ∧
    (ready w [1] []).sinks[0]? = some Sink.fresh ∧ w.extractLsb' 126 2 = 3#2 ∧ 0 ≤ (w.extractLsb' 0 64).toInt := by
  refine ⟨⟨rfl, rfl⟩, rfl, ?_⟩
  decide

/-- The invariant holds of a state in WAIT_PAY, and the payload's answer is a step from it. -/
theorem witness_EveryStepKeepsTheInvariant :
    SystemInv (inWaitPay [.answer 0 1 .ok]) ∧ ∃ t, step (inWaitPay [.answer 0 1 .ok]) = .next t := by
  have only : ∀ (k : Nat) (c : Inst), (inWaitPay [.answer 0 1 .ok]).insts[k]? = some c →
      k = 0 ∧ c = waitInst .waitPay (waitCur .writeFrame (some [7]) 1) := by
    intro k c h
    match k, h with
    | 0, h => exact ⟨rfl, (Option.some.inj h).symm⟩
  refine ⟨⟨fun k c h => ?_, fun k c h => ?_, fun k c h => ?_⟩, _, rfl⟩
  · obtain ⟨-, rfl⟩ := only k c h
    exact ⟨by decide, by decide, .inr (.inr ⟨rfl, rfl, rfl⟩)⟩
  · obtain ⟨rfl, rfl⟩ := only k c h
    intro cur j q h1 h2 h3
    cases h1; cases h2; cases h3; rfl
  · obtain ⟨rfl, rfl⟩ := only k c h
    intro cur j q _ h1 h2 h3
    cases h1; cases h2; cases h3
    exact ⟨0, by decide, by decide⟩

theorem witness_EachCommandGetsOneResponse :
    (inWaitPay [.answer 0 1 .ok]).agenda = .answer 0 1 .ok :: [] ∧ 0 < (inWaitPay [.answer 0 1 .ok]).insts.length ∧
    (∃ t, step (inWaitPay [.answer 0 1 .ok]) = .next t) ∧ (inWaitPay [.reset 0]).agenda = .reset 0 :: [] ∧
    ∃ t, step (inWaitPay [.reset 0]) = .next t :=
  ⟨rfl, by decide, ⟨_, rfl⟩, rfl, _, rfl⟩

theorem witness_EveryStepKeepsResponsesWellFormed :
    ResponsesOk { inWaitPay [.answer 0 1 .ok] with trace := [.respond 0 invalidLengthResponse] } ∧
    ∃ t, step { inWaitPay [.answer 0 1 .ok] with trace := [.respond 0 invalidLengthResponse] } = .next t := by
  refine ⟨fun k r h => ?_, _, rfl⟩
  simp at h
  rw [h.2]
  exact ⟨rfl, rfl, rfl⟩

theorem witness_EveryStepKeepsPayloadsWithinThePort :
    PortsFit { State.reset with agenda := [.present 0 { cmd := 0#128, payload := [] }] } ∧
    ∃ t, step { State.reset with agenda := [.present 0 { cmd := 0#128, payload := [] }] } = .next t := by
  refine ⟨⟨fun k r h => ?_, fun c h => ?_, fun c h => ?_⟩, _, rfl⟩
  · simp at h
    rw [h.2]
    exact Nat.zero_le _
  · have h : c = Inst.fresh (some 0) := List.mem_singleton.mp h
    subst h
    intro r hr
    cases hr
  · have h : c = Inst.fresh (some 0) := List.mem_singleton.mp h
    subst h
    intro cur p hc
    cases hc

end Sys2Proof.Machine.Tests
end

section
/-! PROOFS. Failure values (R8, R95, D25): each operation of the machine commutes with the replacement of every failure
value by another, from the state updates up to `step`. -/
namespace Sys2Proof.Machine

section
variable (f : SinkError → SinkError)

/-! ## State updates -/

theorem setInst_mapError (k : Nat) (c : Inst) (s : State) :
    (s.mapError f).setInst k c = (s.setInst k c).mapError f := rfl

theorem setSink_mapError (j : Nat) (q : Sink) (s : State) :
    (s.mapError f).setSink j (q.mapError f) = (s.setSink j q).mapError f := by
  simp [State.setSink, State.mapError, List.map_set]

theorem emit_mapError (e : Event) (s : State) :
    (s.mapError f).emit (e.mapError f) = (s.emit e).mapError f := by
  simp [State.emit, State.mapError]

/-- An Accept event holds no failure value. -/
theorem takeRequest_mapError (k : Nat) (c : Inst) (r : Request) (rest : List Request) (s : State) :
    takeRequest k c r rest (s.mapError f) = (takeRequest k c r rest s).mapError f := by
  simp [takeRequest, State.emit, State.setInst, State.mapError, Event.mapError]

/-! ## The end of a command -/

theorem finish_mapError (k : Nat) (c : Inst) (r : Response) (s : State) :
    finish k c (r.mapError f) (s.mapError f) = (finish k c r s).mapError f := by
  unfold finish
  rw [setInst_mapError, ← emit_mapError]
  rfl

/-- The last answer of a writing command puts the replaced value into RERR, verbatim (R95). -/
theorem finishWrite_mapError (k : Nat) (c : Inst) (r : Answer) (s : State) :
    finishWrite k c (r.mapError f) (s.mapError f) = (finishWrite k c r s).mapError f := by
  cases r with
  | ok => exact finish_mapError f k c writtenResponse s
  | err e => exact finish_mapError f k c (errorResponse (.sinkFailure e)) s

/-! ## Write calls -/

theorem sinkAt_mapError (j : Nat) (s : State) :
    (s.mapError f).sinks[j]? = s.sinks[j]?.map (Sink.mapError f) := by simp

theorem receive_mapError (j : Nat) (call : Call) (s : State) :
    receive j (call.mapError f) (s.mapError f) = (receive j call s).mapError f := by
  unfold receive
  rw [sinkAt_mapError]
  cases s.sinks[j]? with
  | none => rfl
  | some q =>
    rw [← setSink_mapError]
    simp [Sink.mapError]

theorem nextCall_mapError (c : Inst) (s : State) : nextCall c (s.mapError f) = nextCall c s := by
  unfold nextCall
  cases c.sink with
  | none => rfl
  | some j => cases h : s.sinks[j]? <;> simp [h, Sink.mapError]

theorem sinkWrite_mapError (k : Nat) (c : Inst) (bytes : List Byte) (s : State) :
    sinkWrite k c bytes (s.mapError f) = (sinkWrite k c bytes s).mapError f := by
  have hissue := emit_mapError f (.issue k bytes) s
  unfold sinkWrite
  cases c.sink with
  | none => exact hissue
  | some j =>
    rw [← receive_mapError, ← hissue]
    rfl

/-! ## The acceptance step -/

theorem startWrite_mapError (op : Op) (d : Desc) (payload : Option (List Byte)) (c : Inst) (s : State) :
    startWrite op d payload c (s.mapError f) = (startWrite op d payload c s).mapError f := by
  unfold startWrite
  rw [mapError_draws, mapError_turn, nextCall_mapError]
  cases encodeHeader d (staleBuf s.draws) with
  | none => exact finish_mapError f s.turn c (errorResponse .invalidLength) s
  | some b =>
    rw [← sinkWrite_mapError]
    rfl

/-- Acceptance looks at no failure value, so it commutes with the replacement where the meaning of the command does. -/
theorem accepting_mapError {s : State} {run run' : Inst → Desc → Result} (h : Header)
    (hrun : ∀ c d, run' c d = mapErrorResult f (run c d)) :
    accepting (s.mapError f) h run' = mapErrorResult f (accepting s h run) := by
  unfold accepting
  rw [mapError_insts, mapError_turn]
  cases s.insts[s.turn]? with
  | none => rfl
  | some c =>
    by_cases hp : c.phase = .idle
    · cases hd : latchDesc h <;> simp [hp, hrun, mapErrorResult]
    · simp [hp, mapErrorResult]

theorem execSize_mapError (h : Header) (s : State) :
    execSize h (s.mapError f) = mapErrorResult f (execSize h s) := by
  refine accepting_mapError f h fun c d => ?_
  cases headerSize d with
  | none => exact congrArg _ (finish_mapError f s.turn c (errorResponse .invalidLength) s)
  | some n => exact congrArg _ (finish_mapError f s.turn c (sizeResponse n) s)

theorem execEncode_mapError (h : Header) (s : State) :
    execEncode h (s.mapError f) = mapErrorResult f (execEncode h s) := by
  refine accepting_mapError f h fun c d => ?_
  rw [mapError_draws, mapError_turn]
  cases encodeHeader d (staleBuf s.draws) with
  | none => exact congrArg _ (finish_mapError f s.turn c (errorResponse .invalidLength) s)
  | some b =>
    have hfinish := finish_mapError f s.turn c (encodeResponse b.1 b.2) s
    exact congrArg (fun t : State => Host.Outcome.next { t with draws := s.draws + 1 }) hfinish

theorem exec_mapError (i : Instr) (s : State) : exec i (s.mapError f) = mapErrorResult f (exec i s) := by
  cases i with
  | size h => exact execSize_mapError f h s
  | encode h => exact execEncode_mapError f h s
  | writeHeader h =>
    exact accepting_mapError f h fun c d => congrArg _ (startWrite_mapError f .writeHeader d none c s)
  | writeFrame h payload =>
    exact accepting_mapError f h fun c d => congrArg _ (startWrite_mapError f .writeFrame d (some payload) c s)

/-- What a fetch finds, with every failure value of the state replaced by `f`. -/
def Fetched.mapError : Fetched → Fetched
  | .absent => .absent
  | .held => .held
  | .command i s => .command i (s.mapError f)

theorem fetch_mapError (k : Nat) (s : State) : fetch k (s.mapError f) = (fetch k s).mapError f := by
  unfold fetch
  rw [mapError_insts]
  cases s.insts[k]? with
  | none => rfl
  | some c =>
    cases hport : c.port with
    | nil => simp [hport, Fetched.mapError]
    | cons r rest =>
      by_cases hready : c.ready = true
      · simp [hport, hready, Fetched.mapError, takeRequest_mapError]
      · simp [hport, hready, Fetched.mapError]

theorem stepAccept_mapError (k : Nat) (s : State) :
    stepAccept k (s.mapError f) = mapErrorResult f (stepAccept k s) := by
  unfold stepAccept
  rw [fetch_mapError]
  cases fetch k s with
  | absent => rfl
  | held => rfl
  | command i t => exact exec_mapError f i t

/-! ## The sink-answer step -/

theorem seen_mapError (r : Reply) : (r.mapError f).seen = r.seen.mapError f := by
  cases r <;> rfl

/-- How much of a failed call reaches OUT does not depend on the failure value. -/
theorem settle_mapError (q : Sink) (n : Nat) (call : Call) (r : Reply) :
    (q.mapError f).settle n (call.mapError f) (r.mapError f) = (q.settle n call r).mapError f := by
  cases r <;> simp [Sink.settle, Sink.mapError, Call.mapError, Reply.delivered, Reply.mapError, Reply.seen,
    Answer.mapError, List.map_set]

theorem answerFrameHeader_mapError (k : Nat) (c : Inst) (cur : Cur) (payload : List Byte) (r : Answer) (s : State) :
    answerFrameHeader k c cur payload (r.mapError f) (s.mapError f) =
      (answerFrameHeader k c cur payload r s).mapError f := by
  cases r with
  | err e => exact finish_mapError f k c (errorResponse (.sinkFailure e)) s
  | ok =>
    simp only [answerFrameHeader, Answer.mapError, nextCall_mapError]
    rw [setInst_mapError, sinkWrite_mapError]

theorem coreAnswer_mapError (k : Nat) (c : Inst) (r : Answer) (s : State) :
    coreAnswer k c (r.mapError f) (s.mapError f) = (coreAnswer k c r s).mapError f := by
  have hseen : (s.mapError f).emit (.answer k (r.mapError f)) = (s.emit (.answer k r)).mapError f :=
    emit_mapError f (.answer k r) s
  unfold coreAnswer
  rw [hseen]
  split
  · split
    · exact finishWrite_mapError f k c r _
    · exact answerFrameHeader_mapError f k c _ _ r _
    · rfl
    · rfl
    · rfl
  · exact finishWrite_mapError f k c r _
  · rfl
  · rfl
  · rfl

theorem deliverAnswer_mapError (w : Writer) (j n : Nat) (r : Answer) (s : State) :
    deliverAnswer w j n (r.mapError f) (s.mapError f) = (deliverAnswer w j n r s).mapError f := by
  cases w with
  | other => rfl
  | core k =>
    simp only [deliverAnswer, mapError_insts]
    cases s.insts[k]? with
    | none => rfl
    | some c =>
      by_cases hw : waitsFor c j n = true
      · simp [hw, coreAnswer_mapError]
      · simp [hw]

theorem sinkAnswer_mapError (j n : Nat) (r : Reply) (s : State) :
    sinkAnswer j n (r.mapError f) (s.mapError f) = mapErrorResult f (sinkAnswer j n r s) := by
  unfold sinkAnswer
  rw [sinkAt_mapError]
  cases s.sinks[j]? with
  | none => rfl
  | some q =>
    have hcall : (q.mapError f).wlog[n]? = q.wlog[n]?.map (Call.mapError f) := List.getElem?_map
    simp only [Option.map_some, hcall]
    cases q.wlog[n]? with
    | none => rfl
    | some call =>
      cases hans : call.answer with
      | some a => simp [hans, Call.mapError, mapErrorResult]
      | none =>
        have hopen : (call.mapError f).answer = none := by simp [Call.mapError, hans]
        simp only [Option.map_some, hopen, hans, mapErrorResult]
        rw [settle_mapError, setSink_mapError, seen_mapError]
        exact congrArg _ (deliverAnswer_mapError f call.writer j n r.seen _)

/-! ## One step -/

theorem stepMove_mapError (m : Move) (s : State) :
    stepMove (m.mapError f) (s.mapError f) = mapErrorResult f (stepMove m s) := by
  cases m with
  | present k r =>
    simp only [stepMove, Move.mapError, presentRequest, mapError_insts]
    cases s.insts[k]? <;> rfl
  | accept k => exact stepAccept_mapError f k s
  | answer j n r => exact sinkAnswer_mapError f j n r s
  | reset k =>
    simp only [stepMove, Move.mapError, resetInst, mapError_insts]
    cases s.insts[k]? <;> rfl
  | otherWrite j bytes =>
    simp only [stepMove, Move.mapError, otherWrite, sinkAt_mapError]
    cases s.sinks[j]? with
    | none => rfl
    | some q => exact congrArg _ (receive_mapError f j { writer := .other, bytes := bytes, answer := none } s)

end

/-- Settles O47: the moves of the agenda one by one, each by the lemma that its operation commutes with the
replacement. -/
theorem failureValuesAreNeverInspected : Obligations.FailureValuesAreNeverInspected := by
  intro f s
  unfold step
  rw [mapError_agenda]
  cases s.agenda with
  | nil => rfl
  | cons m rest => exact stepMove_mapError f m { s with agenda := rest }

end Sys2Proof.Machine
end

section
/-! PROOFS. PAYLOAD_MAX (R8, R63, D23): no step latches, holds or queues a payload that the requester did not supply, so
a bound on the requester's payloads bounds them all. -/
namespace Sys2Proof.Machine

/-- R63: what an `Inst` holds, at its port and latched in PAYLOAD, has at most PAYLOAD_MAX bytes. -/
structure Inst.Fits (c : Inst) : Prop where
  port    : ∀ r ∈ c.port, r.payload.length ≤ Config.payloadMax
  latched : ∀ cur p, c.cur = some cur → cur.payload = some p → p.length ≤ Config.payloadMax

/-- `PortsFit` is the bound on the moves to come and on every `Inst`. -/
theorem portsFit_iff {s : State} : PortsFit s ↔
    (∀ k r, Move.present k r ∈ s.agenda → r.payload.length ≤ Config.payloadMax) ∧ ∀ c ∈ s.insts, c.Fits :=
  ⟨fun h => ⟨h.coming, fun c hc => ⟨h.port c hc, h.latched c hc⟩⟩,
    fun ⟨hcoming, hinst⟩ => ⟨hcoming, fun c hc => (hinst c hc).port, fun c hc => (hinst c hc).latched⟩⟩

theorem PortsFit.instAt {s : State} {k : Nat} {c : Inst} (hs : PortsFit s) (hc : s.insts[k]? = some c) : c.Fits :=
  (portsFit_iff.mp hs).2 c (List.mem_of_getElem? hc)

/-- The bound reads `insts` and the agenda only. -/
theorem PortsFit.congr {s t : State} (hs : PortsFit s) (hinsts : t.insts = s.insts) (hagenda : t.agenda = s.agenda) :
    PortsFit t := by
  rw [portsFit_iff] at hs ⊢
  rwa [hinsts, hagenda]

/-- A step that replaces one `Inst` by one that fits keeps the bound. -/
theorem PortsFit.setInst {s : State} {c : Inst} (hs : PortsFit s) (k : Nat) (hc : c.Fits) :
    PortsFit (s.setInst k c) := by
  rw [portsFit_iff] at hs ⊢
  obtain ⟨hcoming, hinst⟩ := hs
  refine ⟨hcoming, fun c' hc' => ?_⟩
  rcases List.mem_or_eq_of_mem_set hc' with hold | rfl
  · exact hinst c' hold
  · exact hc

theorem Inst.Fits.toIdle {c : Inst} (hc : c.Fits) : c.toIdle.Fits :=
  ⟨hc.port, by simp⟩

/-- An `Inst` that latches a payload within the bound fits. -/
theorem Inst.Fits.latch {c : Inst} {cur : Cur} (hc : c.Fits) (phase : Phase)
    (hcur : ∀ p, cur.payload = some p → p.length ≤ Config.payloadMax) :
    Inst.Fits { c with phase := phase, cur := some cur } :=
  ⟨hc.port, fun _ p he hp => hcur p (Option.some.inj he ▸ hp)⟩

/-! ## The shared operations -/

theorem PortsFit.finish {s : State} {c : Inst} (hs : PortsFit s) (hc : c.Fits) (k : Nat) (r : Response) :
    PortsFit (finish k c r s) :=
  (hs.setInst k hc.toIdle).congr rfl rfl

theorem PortsFit.finishWrite {s : State} {c : Inst} (hs : PortsFit s) (hc : c.Fits) (k : Nat) (r : Answer) :
    PortsFit (finishWrite k c r s) := by
  rw [finishWrite_eq]
  exact hs.finish hc k _

theorem PortsFit.sinkWrite {s : State} (hs : PortsFit s) (k : Nat) (c : Inst) (bytes : List Byte) :
    PortsFit (sinkWrite k c bytes s) :=
  hs.congr (sinkWrite_insts k c bytes s) (sinkWrite_agenda k c bytes s)

theorem PortsFit.startWrite {s : State} {c : Inst} {payload : Option (List Byte)} (hs : PortsFit s) (hc : c.Fits)
    (hp : ∀ p, payload = some p → p.length ≤ Config.payloadMax) (op : Op) (d : Desc) :
    PortsFit (startWrite op d payload c s) := by
  unfold Machine.startWrite
  cases encodeHeader d (staleBuf s.draws) with
  | none => exact hs.finish hc s.turn _
  | some b =>
    refine PortsFit.sinkWrite ?_ ..
    exact (hs.setInst s.turn (hc.latch .waitHdr hp)).congr rfl rfl

/-! ## The acceptance step -/

/-- Acceptance keeps the bound if the meaning of the command does at an `Inst` that fits. -/
theorem PortsFit.accepting {s t : State} {h : Header} {run : Inst → Desc → Result} (hs : PortsFit s)
    (hrun : ∀ c d t, c.Fits → run c d = .next t → PortsFit t) (ht : accepting s h run = .next t) : PortsFit t := by
  rcases accepting_next ht with ⟨_, _, _, rfl⟩ | ⟨c, hidle, _, ht⟩
  · exact hs
  · exact hrun c _ t (hs.instAt hidle.1) ht

theorem PortsFit.execSize {s t : State} {h : Header} (hs : PortsFit s) (ht : execSize h s = .next t) :
    PortsFit t := by
  refine hs.accepting (fun c d t hc ht => ?_) ht
  cases hsize : headerSize d with
  | none =>
    simp only [hsize] at ht
    cases ht
    exact hs.finish hc s.turn _
  | some n =>
    simp only [hsize] at ht
    cases ht
    exact hs.finish hc s.turn _

theorem PortsFit.execEncode {s t : State} {h : Header} (hs : PortsFit s) (ht : execEncode h s = .next t) :
    PortsFit t := by
  refine hs.accepting (fun c d t hc ht => ?_) ht
  cases henc : encodeHeader d (staleBuf s.draws) with
  | none =>
    simp only [henc] at ht
    cases ht
    exact hs.finish hc s.turn _
  | some b =>
    simp only [henc] at ht
    cases ht
    exact (hs.finish hc s.turn (encodeResponse b.1 b.2)).congr rfl rfl

/-- R63: a command latches its own payload at most. -/
theorem PortsFit.exec {s t : State} {i : Instr} (hs : PortsFit s) (hi : i.payload.length ≤ Config.payloadMax)
    (ht : exec i s = .next t) : PortsFit t := by
  cases i with
  | size h => exact hs.execSize ht
  | encode h => exact hs.execEncode ht
  | writeHeader h =>
    refine hs.accepting (fun c d t hc ht => ?_) ht
    cases ht
    exact hs.startWrite hc (by simp) .writeHeader d
  | writeFrame h payload =>
    refine hs.accepting (fun c d t hc ht => ?_) ht
    cases ht
    exact hs.startWrite hc (fun p hp => Option.some.inj hp ▸ hi) .writeFrame d

/-- R63: a decoded command carries the payload port, or nothing. -/
theorem decode_payload_length_le (w : CmdWord) (p : List Byte) : (decode w p).payload.length ≤ p.length := by
  unfold decode
  cases opOfCode (cmdOp w) <;> simp

/-- A command that is accepted is the decoded request at the port of an IDLE `Inst`. -/
theorem fetch_eq_command {s t : State} {k : Nat} {i : Instr} (h : fetch k s = .command i t) :
    ∃ c r rest, IdleAt s k c ∧ c.port = r :: rest ∧ i = decode r.cmd r.payload ∧ t = takeRequest k c r rest s := by
  unfold fetch at h
  split at h
  · cases h
  · rename_i c hc
    split at h
    · cases h
    · rename_i r rest hport
      split at h
      · rename_i hready
        cases h
        exact ⟨c, r, rest, ⟨hc, of_decide_eq_true hready⟩, hport, rfl, rfl⟩
      · cases h

theorem PortsFit.stepAccept {s t : State} {k : Nat} (hs : PortsFit s) (ht : stepAccept k s = .next t) :
    PortsFit t := by
  unfold Machine.stepAccept at ht
  cases hf : fetch k s with
  | absent => simp [hf] at ht
  | held =>
    simp only [hf] at ht
    cases ht
    exact hs
  | command i u =>
    simp only [hf] at ht
    obtain ⟨c, r, rest, hidle, hport, rfl, rfl⟩ := fetch_eq_command hf
    have hc := hs.instAt hidle.1
    have hr : r.payload.length ≤ Config.payloadMax := hc.port r (by simp [hport])
    have hrest : Inst.Fits { c with port := rest } :=
      ⟨fun r' hr' => hc.port r' (by simp [hport, hr']), hc.latched⟩
    have htaken : PortsFit (takeRequest k c r rest s) := (hs.setInst k hrest).congr rfl rfl
    exact htaken.exec ((decode_payload_length_le _ _).trans hr) ht

/-! ## The sink-answer step -/

/-- R88: the payload call keeps what the acceptance step latched. -/
theorem PortsFit.answerFrameHeader {s : State} {c : Inst} {cur : Cur} (hs : PortsFit s) (hc : c.Fits)
    (hcur : c.cur = some cur) (k : Nat) (payload : List Byte) (r : Answer) :
    PortsFit (answerFrameHeader k c cur payload r s) := by
  cases r with
  | err e => exact hs.finish hc k _
  | ok =>
    have hlatch : Inst.Fits { c with phase := .waitPay, cur := some { cur with call := nextCall c s } } :=
      hc.latch .waitPay fun p hp => hc.latched cur p hcur hp
    exact (hs.setInst k hlatch).sinkWrite k c payload

theorem PortsFit.coreAnswer {s : State} {c : Inst} (hs : PortsFit s) (hc : c.Fits) (k : Nat) (r : Answer) :
    PortsFit (coreAnswer k c r s) := by
  have hseen : PortsFit (s.emit (.answer k r)) := hs.congr rfl rfl
  unfold Machine.coreAnswer
  split
  · rename_i cur _ hcur
    split
    · exact hseen.finishWrite hc k r
    · exact hseen.answerFrameHeader hc hcur k _ r
    · exact hs
    · exact hs
    · exact hs
  · exact hseen.finishWrite hc k r
  · exact hs
  · exact hs
  · exact hs

theorem PortsFit.sinkAnswer {s t : State} {j n : Nat} {r : Reply} (hs : PortsFit s)
    (ht : sinkAnswer j n r s = .next t) : PortsFit t := by
  obtain ⟨q, call, _, _, _, rfl⟩ := sinkAnswer_next ht
  have hsettled : PortsFit (s.setSink j (settled q n call r)) := hs.congr rfl rfl
  rcases deliverAnswer_cases call.writer j n r.seen (s.setSink j (settled q n call r)) with
    hnone | ⟨k, c, _, hc, _, hcore⟩
  · rwa [hnone]
  · rw [hcore]
    exact hsettled.coreAnswer (hsettled.instAt hc) k r.seen

/-! ## One step -/

/-- A requester within the bound presents a request within it. -/
theorem PortsFit.presentRequest {s t : State} {k : Nat} {r : Request} (hs : PortsFit s)
    (hr : r.payload.length ≤ Config.payloadMax) (ht : presentRequest k r s = .next t) : PortsFit t := by
  unfold Machine.presentRequest at ht
  split at ht
  · cases ht
  · rename_i c hc
    cases ht
    have hfit := hs.instAt hc
    refine hs.setInst k ⟨fun r' hr' => ?_, hfit.latched⟩
    rcases List.mem_append.mp hr' with hold | hnew
    · exact hfit.port r' hold
    · exact List.mem_singleton.mp hnew ▸ hr

theorem PortsFit.resetInst {s t : State} {k : Nat} (hs : PortsFit s) (ht : resetInst k s = .next t) :
    PortsFit t := by
  unfold Machine.resetInst at ht
  split at ht
  · cases ht
  · rename_i c hc
    cases ht
    exact hs.setInst k (hs.instAt hc).toIdle

theorem PortsFit.otherWrite {s t : State} {j : Nat} {bytes : List Byte} (hs : PortsFit s)
    (ht : otherWrite j bytes s = .next t) : PortsFit t := by
  unfold Machine.otherWrite at ht
  split at ht
  · cases ht
  · cases ht
    exact hs.congr (receive_insts ..) (receive_agenda ..)

theorem PortsFit.stepMove {s t : State} {m : Move} (hs : PortsFit s)
    (hm : ∀ k r, m = .present k r → r.payload.length ≤ Config.payloadMax) (ht : stepMove m s = .next t) :
    PortsFit t := by
  cases m with
  | present k r => exact hs.presentRequest (hm k r rfl) ht
  | accept k => exact hs.stepAccept ht
  | answer j n r => exact hs.sinkAnswer ht
  | reset k => exact hs.resetInst ht
  | otherWrite j bytes => exact hs.otherWrite ht

/-- Settles O45: the bound on the agenda passes to the port, and the bound on the port to what is latched. -/
theorem everyStepKeepsPayloadsWithinThePort : Obligations.EveryStepKeepsPayloadsWithinThePort := by
  intro s t hs ht
  unfold step at ht
  cases hagenda : s.agenda with
  | nil =>
    simp only [hagenda] at ht
    cases ht
    exact hs
  | cons m rest =>
    simp only [hagenda] at ht
    obtain ⟨hcoming, hinst⟩ := portsFit_iff.mp hs
    rw [hagenda] at hcoming
    have hrest : PortsFit { s with agenda := rest } :=
      portsFit_iff.mpr ⟨fun k r hr => hcoming k r (List.mem_cons_of_mem m hr), hinst⟩
    exact hrest.stepMove (fun k r he => hcoming k r (he ▸ List.mem_cons_self)) ht

end Sys2Proof.Machine
end

section
/-! PROOFS. One step said once (R11): for each move, the states it can answer, built from the shared operations. The
invariants below are derived from `Moved` and do not unfold the machine again. -/
namespace Sys2Proof.Machine

/-! ## The two things a command does: it issues a write call, or it ends -/

/-- R35, R85, R87, R88: CORE `k` latches `cur`, waits in phase `p`, and issues the write call of that phase. -/
def issueCall (k : Nat) (c : Inst) (p : Phase) (cur : Cur) (s : State) : State :=
  let waiting : Inst := { c with phase := p, cur := some { cur with call := nextCall c s } }
  sinkWrite k c (outstandingBytes waiting cur) (s.setInst k waiting)

section
variable (k : Nat) (c : Inst) (p : Phase) (cur : Cur) (s : State)

@[simp] theorem issueCall_insts : (issueCall k c p cur s).insts =
    s.insts.set k { c with phase := p, cur := some { cur with call := nextCall c s } } :=
  sinkWrite_insts ..

@[simp] theorem issueCall_sinks : (issueCall k c p cur s).sinks = received s.sinks c.sink
    { writer := .core k, bytes := outstandingBytes { c with phase := p } cur, answer := none } :=
  sinkWrite_sinks ..

@[simp] theorem issueCall_agenda : (issueCall k c p cur s).agenda = s.agenda := sinkWrite_agenda ..
@[simp] theorem issueCall_turn : (issueCall k c p cur s).turn = s.turn := sinkWrite_turn ..
@[simp] theorem issueCall_draws : (issueCall k c p cur s).draws = s.draws := sinkWrite_draws ..

@[simp] theorem issueCall_trace : (issueCall k c p cur s).trace =
    s.trace ++ [.issue k (outstandingBytes { c with phase := p } cur)] :=
  sinkWrite_trace ..
end

/-- R85, R87: what the acceptance step of a writing command latches beside the place of its call: the operation with
its PAYLOAD, and the header of the descriptor, encoded into a fresh HBUF. -/
structure Latched (cur : Cur) (draw : Nat) : Prop where
  operation : cur.op = .writeHeader ∧ cur.payload = none ∨ cur.op = .writeFrame ∧ cur.payload.isSome
  header    : encodeHeader cur.desc (staleBuf draw) = some (cur.hbuf, cur.hlen)

/-! ## The acceptance step -/

/-- An IDLE `Inst` that answers a next state has run the command. -/
theorem accepting_idle_next {s t : State} {h : Header} {c : Inst} {run : Inst → Desc → Result}
    (hc : IdleAt s s.turn c) (ht : accepting s h run = .next t) : run c (descOf h) = .next t := by
  rcases accepting_next ht with ⟨c', hc', hbusy, -⟩ | ⟨c', ⟨hc', -⟩, -, hrun⟩
  · cases hc.1.symm.trans hc'
    exact absurd hc.2 hbusy
  · cases hc.1.symm.trans hc'
    exact hrun

/-- A command either ends in its acceptance step, or issues its header. -/
def EndsOrIssues (s : State) (c : Inst) (t : State) : Prop :=
  (∃ r n, t = finish s.turn c r { s with draws := n }) ∨
  (∃ cur, Latched cur s.draws ∧ t = issueCall s.turn c .waitHdr cur { s with draws := s.draws + 1 })

theorem startWrite_of_none {d : Desc} {s : State} (henc : encodeHeader d (staleBuf s.draws) = none) (op : Op)
    (payload : Option (List Byte)) (c : Inst) :
    startWrite op d payload c s = finish s.turn c (errorResponse .invalidLength) s := by
  simp only [startWrite, henc, raiseError_eq]

/-- R85, R87: a writing command with a header issues it; the place of its call is set by `issueCall`. -/
theorem startWrite_of_some {d : Desc} {s : State} {buf : HBuf} {hlen : Fin 15}
    (henc : encodeHeader d (staleBuf s.draws) = some (buf, hlen)) (op : Op) (payload : Option (List Byte)) (c : Inst) :
    startWrite op d payload c s = issueCall s.turn c .waitHdr
      { op := op, desc := d, payload := payload, hbuf := buf, hlen := hlen, call := 0 }
      { s with draws := s.draws + 1 } := by
  simp only [startWrite, henc]
  rfl

theorem startWrite_endsOrIssues {op : Op} {payload : Option (List Byte)}
    (hop : op = .writeHeader ∧ payload = none ∨ op = .writeFrame ∧ payload.isSome) (d : Desc) (c : Inst) (s : State) :
    EndsOrIssues s c (startWrite op d payload c s) := by
  cases henc : encodeHeader d (staleBuf s.draws) with
  | none => exact .inl ⟨_, s.draws, startWrite_of_none henc op payload c⟩
  | some b =>
    rw [startWrite_of_some henc]
    refine .inr ⟨{ op := op, desc := d, payload := payload, hbuf := b.1, hlen := b.2, call := 0 }, ?_, rfl⟩
    exact ⟨hop, henc⟩

theorem exec_endsOrIssues {i : Instr} {s t : State} {c : Inst} (hc : IdleAt s s.turn c) (ht : exec i s = .next t) :
    EndsOrIssues s c t := by
  cases i with
  | size h =>
    have hrun := accepting_idle_next hc ht
    cases hsize : headerSize (descOf h) with
    | none =>
      simp only [hsize] at hrun
      cases hrun
      exact .inl ⟨errorResponse .invalidLength, s.draws, rfl⟩
    | some n =>
      simp only [hsize] at hrun
      cases hrun
      exact .inl ⟨sizeResponse n, s.draws, rfl⟩
  | encode h =>
    have hrun := accepting_idle_next hc ht
    cases henc : encodeHeader (descOf h) (staleBuf s.draws) with
    | none =>
      simp only [henc] at hrun
      cases hrun
      exact .inl ⟨errorResponse .invalidLength, s.draws, rfl⟩
    | some b =>
      simp only [henc] at hrun
      cases hrun
      exact .inl ⟨encodeResponse b.1 b.2, s.draws + 1, rfl⟩
  | writeHeader h =>
    cases accepting_idle_next hc ht
    exact startWrite_endsOrIssues (.inl ⟨rfl, rfl⟩) (descOf h) c s
  | writeFrame h payload =>
    cases accepting_idle_next hc ht
    exact startWrite_endsOrIssues (.inr ⟨rfl, rfl⟩) (descOf h) c s

/-! ## The sink-answer step -/

/-- Without a current command the clause asks for IDLE. -/
theorem currentCommandOk_none {c : Inst} (hcur : c.cur = none) : CurrentCommandOk c ↔ c.phase = .idle := by
  simp [CurrentCommandOk, hcur]

/-- With a current command the clause asks for a header in HBUF, and for one of the three ways to wait. -/
theorem currentCommandOk_some {c : Inst} {cur : Cur} (hcur : c.cur = some cur) : CurrentCommandOk c ↔
    0 ≤ cur.desc.len.toInt ∧ headerBytes cur.hbuf cur.hlen = wireHeader cur.desc ∧
    ((c.phase = .waitHdr ∧ cur.op = .writeHeader ∧ cur.payload = none) ∨
     (c.phase = .waitHdr ∧ cur.op = .writeFrame ∧ cur.payload.isSome) ∨
     (c.phase = .waitPay ∧ cur.op = .writeFrame ∧ cur.payload.isSome)) := by
  simp [CurrentCommandOk, hcur]

/-- An answer that reaches `c` ends its command, or lets WRITE_FRAME issue the payload; it has no effect only
where the current command is none that waits. -/
theorem coreAnswer_cases (k : Nat) (c : Inst) (a : Answer) (s : State) :
    (coreAnswer k c a s = s ∧ (CurrentCommandOk c → c.phase = .idle)) ∨
    (∃ r, coreAnswer k c a s = finish k c r (s.emit (.answer k a))) ∨
    (∃ cur, c.phase = .waitHdr ∧ c.cur = some cur ∧ cur.op = .writeFrame ∧ cur.payload.isSome ∧ a = .ok ∧
      coreAnswer k c a s = issueCall k c .waitPay cur (s.emit (.answer k a))) := by
  unfold coreAnswer
  split
  · rename_i cur hphase hcur
    split
    · exact .inr (.inl ⟨_, finishWrite_eq ..⟩)
    · rename_i payload hop hpayload
      cases a with
      | err e => exact .inr (.inl ⟨_, raiseError_eq ..⟩)
      | ok =>
        refine .inr (.inr ⟨cur, hphase, hcur, hop, by simp [hpayload], rfl, ?_⟩)
        simp [answerFrameHeader, issueCall, outstandingBytes, hpayload]
    · rename_i hop hpayload
      exact .inl ⟨rfl, by simp [currentCommandOk_some hcur, hop, hpayload]⟩
    · rename_i hop
      exact .inl ⟨rfl, by simp [currentCommandOk_some hcur, hop]⟩
    · rename_i hop
      exact .inl ⟨rfl, by simp [currentCommandOk_some hcur, hop]⟩
  · exact .inr (.inl ⟨_, finishWrite_eq ..⟩)
  · rename_i hcur
    exact .inl ⟨rfl, (currentCommandOk_none hcur).mp⟩
  · rename_i hcur
    exact .inl ⟨rfl, (currentCommandOk_none hcur).mp⟩
  · rename_i hphase
    exact .inl ⟨rfl, fun _ => hphase⟩

/-! ## One step -/

/-- The call at place `n` of sink `j` is `call`, and has no answer. -/
structure OpenCall (s : State) (j n : Nat) (q : Sink) (call : Call) : Prop where
  sinkAt     : s.sinks[j]? = some q
  callAt     : q.wlog[n]? = some call
  unanswered : call.answer = none

/-- The state in which an accepted command runs, with `n` current commands created so far. -/
def taken (k : Nat) (c : Inst) (req : Request) (port : List Request) (n : Nat) (s : State) : State :=
  { takeRequest k c req port s with draws := n }

/-- The state in which CORE `k` goes on after the answer `r` to `call`. -/
def heard (k j n : Nat) (q : Sink) (call : Call) (r : Reply) (s : State) : State :=
  (s.setSink j (settled q n call r)).emit (.answer k r.seen)

section
variable (k j n : Nat) (c : Inst) (req : Request) (port : List Request) (q : Sink) (call : Call) (r : Reply) (s : State)

@[simp] theorem taken_insts : (taken k c req port n s).insts = s.insts.set k { c with port := port } := rfl
@[simp] theorem taken_sinks : (taken k c req port n s).sinks = s.sinks := rfl
@[simp] theorem taken_trace : (taken k c req port n s).trace = s.trace ++ [.accept k req.cmd req.payload] := rfl

@[simp] theorem heard_insts : (heard k j n q call r s).insts = s.insts := rfl
@[simp] theorem heard_sinks : (heard k j n q call r s).sinks = s.sinks.set j (settled q n call r) := rfl
@[simp] theorem heard_trace : (heard k j n q call r s).trace = s.trace ++ [.answer k r.seen] := rfl
end

/-- The `Inst` whose request is taken is still IDLE when its command runs. -/
theorem taken_idleAt {s : State} {k : Nat} {c : Inst} (hc : IdleAt s k c) (req : Request) (port : List Request)
    (n : Nat) : IdleAt (taken k c req port n s) k { c with port := port } := by
  obtain ⟨hlt, -⟩ := List.getElem?_eq_some_iff.mp hc.1
  exact ⟨by simp [hlt], hc.2⟩

/-- The states that the moves answer, apart from the agenda. -/
inductive Moved (s : State) : Move → State → Prop
  /-- A request stays at the port. -/
  | held {k} : Moved s (.accept k) s
  | presented {k r c} (hc : s.insts[k]? = some c) :
      Moved s (.present k r) (s.setInst k { c with port := c.port ++ [r] })
  | wasReset {k c} (hc : s.insts[k]? = some c) : Moved s (.reset k) (s.setInst k c.toIdle)
  | otherIssued {j bytes} :
      Moved s (.otherWrite j bytes) (receive j { writer := .other, bytes := bytes, answer := none } s)
  /-- A command ends in its acceptance step. -/
  | ended {k c req port r n} (hc : IdleAt s k c) :
      Moved s (.accept k) (finish k { c with port := port } r (taken k c req port n s))
  /-- A writing command issues its header. -/
  | headerIssued {k c req port cur} (hc : IdleAt s k c) (hcur : Latched cur s.draws) :
      Moved s (.accept k) (issueCall k { c with port := port } .waitHdr cur
        (taken k c req port (s.draws + 1) s))
  /-- An answer reaches no `Inst` that waits for it. -/
  | unheard {j n r q call} (hcall : OpenCall s j n q call)
      (hunheard : ∀ k c, call.writer = .core k → s.insts[k]? = some c → CurrentCommandOk c → waitsFor c j n = false) :
      Moved s (.answer j n r) (s.setSink j (settled q n call r))
  /-- An answer ends the command that waits for it. -/
  | answered {j n r q call k c resp} (hcall : OpenCall s j n q call) (hk : call.writer = .core k)
      (hc : s.insts[k]? = some c) (hwaits : waitsFor c j n = true) :
      Moved s (.answer j n r) (finish k c resp (heard k j n q call r s))
  /-- The answer `Ok` to its header lets a WRITE_FRAME issue its payload. -/
  | payloadIssued {j n r q call k c cur} (hcall : OpenCall s j n q call) (hk : call.writer = .core k)
      (hc : s.insts[k]? = some c) (hwaits : waitsFor c j n = true) (hphase : c.phase = .waitHdr)
      (hcur : c.cur = some cur) (hop : cur.op = .writeFrame) (hpayload : cur.payload.isSome) (hok : r.seen = .ok) :
      Moved s (.answer j n r) (issueCall k c .waitPay cur (heard k j n q call r s))

theorem moved_of_presentRequest {s t : State} {k : Nat} {r : Request} (ht : presentRequest k r s = .next t) :
    Moved s (.present k r) t := by
  unfold presentRequest at ht
  split at ht
  · cases ht
  · rename_i c hc
    cases ht
    exact .presented hc

theorem moved_of_resetInst {s t : State} {k : Nat} (ht : resetInst k s = .next t) : Moved s (.reset k) t := by
  unfold resetInst at ht
  split at ht
  · cases ht
  · rename_i c hc
    cases ht
    exact .wasReset hc

theorem moved_of_otherWrite {s t : State} {j : Nat} {bytes : List Byte} (ht : otherWrite j bytes s = .next t) :
    Moved s (.otherWrite j bytes) t := by
  unfold otherWrite at ht
  split at ht
  · cases ht
  · cases ht
    exact .otherIssued

theorem moved_of_stepAccept {s t : State} {k : Nat} (ht : stepAccept k s = .next t) : Moved s (.accept k) t := by
  unfold stepAccept at ht
  cases hf : fetch k s with
  | absent => simp [hf] at ht
  | held =>
    simp only [hf] at ht
    cases ht
    exact .held
  | command i u =>
    simp only [hf] at ht
    obtain ⟨c, req, port, hc, -, -, rfl⟩ := fetch_eq_command hf
    rcases exec_endsOrIssues (taken_idleAt hc req port s.draws) ht with ⟨r, n, rfl⟩ | ⟨cur, hcur, rfl⟩
    · exact .ended hc
    · exact .headerIssued hc hcur

/-- An answer reaches the `Inst` that waits for it, if there is one, and no other. -/
theorem deliverAnswer_heard_or_unheard (w : Writer) (j n : Nat) (a : Answer) (s : State) :
    (deliverAnswer w j n a s = s ∧ ∀ k c, w = .core k → s.insts[k]? = some c → waitsFor c j n = false) ∨
    ∃ k c, w = .core k ∧ s.insts[k]? = some c ∧ waitsFor c j n = true ∧
      deliverAnswer w j n a s = coreAnswer k c a s := by
  by_cases hheard : ∃ k c, w = .core k ∧ s.insts[k]? = some c ∧ waitsFor c j n = true
  · obtain ⟨k, c, hk, hc, hwaits⟩ := hheard
    exact .inr ⟨k, c, hk, hc, hwaits, by simp [deliverAnswer, hk, hc, hwaits]⟩
  · have hunheard : ∀ k c, w = .core k → s.insts[k]? = some c → waitsFor c j n = false :=
      fun k c hk hc => Bool.eq_false_iff.mpr fun hwaits => hheard ⟨k, c, hk, hc, hwaits⟩
    rcases deliverAnswer_cases w j n a s with hnone | ⟨k, c, hk, hc, hwaits, -⟩
    · exact .inl ⟨hnone, hunheard⟩
    · exact absurd ⟨k, c, hk, hc, hwaits⟩ hheard

theorem moved_of_sinkAnswer {s t : State} {j n : Nat} {r : Reply} (ht : sinkAnswer j n r s = .next t) :
    Moved s (.answer j n r) t := by
  obtain ⟨q, call, hq, hn, hopen, rfl⟩ := sinkAnswer_next ht
  have hcall : OpenCall s j n q call := ⟨hq, hn, hopen⟩
  rcases deliverAnswer_heard_or_unheard call.writer j n r.seen (s.setSink j (settled q n call r)) with
    ⟨hnone, hunheard⟩ | ⟨k, c, hk, hc, hwaits, hcore⟩
  · rw [hnone]
    exact .unheard hcall fun k c hk hc _ => hunheard k c hk hc
  · rw [hcore]
    rcases coreAnswer_cases k c r.seen (s.setSink j (settled q n call r)) with
      ⟨hnone, hidle⟩ | ⟨resp, hend⟩ | ⟨cur, hphase, hcur, hop, hpayload, hok, hissue⟩
    · rw [hnone]
      refine .unheard hcall fun k' c' hk' hc' hcmd => ?_
      cases hk.symm.trans hk'
      cases hc.symm.trans hc'
      exact waitsFor_idle (hidle hcmd)
    · rw [hend]
      exact .answered hcall hk hc hwaits
    · rw [hissue]
      exact .payloadIssued hcall hk hc hwaits hphase hcur hop hpayload hok

theorem moved_of_stepMove {s t : State} {m : Move} (ht : stepMove m s = .next t) : Moved s m t := by
  cases m with
  | present k r => exact moved_of_presentRequest ht
  | accept k => exact moved_of_stepAccept ht
  | answer j n r => exact moved_of_sinkAnswer ht
  | reset k => exact moved_of_resetInst ht
  | otherWrite j bytes => exact moved_of_otherWrite ht

/-- A step takes the first move off the agenda and does what that move does. -/
theorem step_cons {s : State} {m : Move} {rest : List Move} (hagenda : s.agenda = m :: rest) :
    step s = stepMove m { s with agenda := rest } := by
  simp [step, hagenda]

/-- Everything a step can do. -/
theorem step_cases {s t : State} (ht : step s = .next t) :
    (s.agenda = [] ∧ t = s) ∨ ∃ m rest, s.agenda = m :: rest ∧ Moved { s with agenda := rest } m t := by
  cases hagenda : s.agenda with
  | nil =>
    simp only [step, hagenda] at ht
    cases ht
    exact .inl ⟨rfl, rfl⟩
  | cons m rest =>
    rw [step_cons hagenda] at ht
    exact .inr ⟨m, rest, rfl, moved_of_stepMove ht⟩

end Sys2Proof.Machine
end

section
/-! PROOFS. Sinks grow (R26, R31): OUT is only appended to, and a WLOG entry keeps its place, its issuer and its bytes,
and its answer once it has one. -/
namespace Sys2Proof.Machine

/-- A WLOG entry after a step. -/
def Call.Kept (call call' : Call) : Prop :=
  ∃ a, call' = { call with answer := a } ∧ (call.answer ≠ none → a = call.answer)

theorem Call.Kept.refl (call : Call) : call.Kept call := ⟨call.answer, rfl, fun _ => rfl⟩

theorem Call.Kept.trans {a b c : Call} (hab : a.Kept b) (hbc : b.Kept c) : a.Kept c := by
  obtain ⟨x, rfl, hx⟩ := hab
  obtain ⟨y, rfl, hy⟩ := hbc
  exact ⟨y, rfl, fun ha => (hy (hx ha ▸ ha)).trans (hx ha)⟩

/-- A call that is answered stays as it is. -/
theorem Call.Kept.eq_of_answered {call call' : Call} (h : call.Kept call') (ha : call.answer ≠ none) : call' = call := by
  obtain ⟨a, rfl, hkept⟩ := h
  rw [hkept ha]

/-- A sink after a step. -/
structure Sink.Grows (q q' : Sink) : Prop where
  out  : q.out <+: q'.out
  wlog : ∀ (n : Nat) (call : Call), q.wlog[n]? = some call → ∃ call', q'.wlog[n]? = some call' ∧ call.Kept call'

theorem Sink.Grows.refl (q : Sink) : q.Grows q := ⟨List.prefix_rfl, fun _ call h => ⟨call, h, .refl call⟩⟩

theorem Sink.Grows.trans {a b c : Sink} (hab : a.Grows b) (hbc : b.Grows c) : a.Grows c := by
  refine ⟨hab.out.trans hbc.out, fun n call hcall => ?_⟩
  obtain ⟨call', hcall', hkept⟩ := hab.wlog n call hcall
  obtain ⟨call'', hcall'', hkept'⟩ := hbc.wlog n call' hcall'
  exact ⟨call'', hcall'', hkept.trans hkept'⟩

/-- A received call stands after the entries that are there, which keep their places. -/
theorem getElem?_wlog_append {q : Sink} {n : Nat} {call : Call} (h : q.wlog[n]? = some call) (new : Call) :
    (q.wlog ++ [new])[n]? = some call := by
  obtain ⟨hlt, -⟩ := List.getElem?_eq_some_iff.mp h
  rw [List.getElem?_append_left hlt, h]

/-- R35: a sink receives a call. -/
theorem Sink.Grows.append (q : Sink) (new : Call) : q.Grows { q with wlog := q.wlog ++ [new] } :=
  ⟨List.prefix_rfl, fun _ call h => ⟨call, getElem?_wlog_append h new, .refl call⟩⟩

/-- The WLOG entry at the place of an answer is the answered call, whatever the reply. -/
theorem settled_wlog (q : Sink) (n : Nat) (call : Call) (r : Reply) :
    (settled q n call r).wlog = q.wlog.set n { call with answer := some r.seen } := by
  cases r <;> rfl

/-- R38: an answer appends to OUT, whatever the reply. -/
theorem settled_out_prefix (q : Sink) (n : Nat) (call : Call) (r : Reply) : q.out <+: (settled q n call r).out := by
  cases r <;> exact List.prefix_append ..

/-- R26: a sink answers a call that has no answer. -/
theorem Sink.Grows.settled {s : State} {j n : Nat} {q : Sink} {call : Call} (h : OpenCall s j n q call) (r : Reply) :
    q.Grows (Machine.settled q n call r) := by
  refine ⟨settled_out_prefix q n call r, fun m call' hm => ?_⟩
  rw [settled_wlog]
  by_cases hmn : n = m
  · subst hmn
    cases h.callAt.symm.trans hm
    obtain ⟨hlt, -⟩ := List.getElem?_eq_some_iff.mp hm
    exact ⟨_, List.getElem?_set_self hlt, _, rfl, fun ha => absurd h.unanswered ha⟩
  · exact ⟨call', (List.getElem?_set_ne hmn).trans hm, .refl call'⟩

/-- The sinks of a system after a step: the same ones, each grown. -/
def SinksGrow (sinks sinks' : List Sink) : Prop :=
  ∀ j : Nat, (sinks[j]? = none ∧ sinks'[j]? = none) ∨
    ∃ q q', sinks[j]? = some q ∧ sinks'[j]? = some q' ∧ q.Grows q'

theorem SinksGrow.refl (sinks : List Sink) : SinksGrow sinks sinks := by
  intro j
  cases hq : sinks[j]? with
  | none => exact .inl ⟨rfl, rfl⟩
  | some q => exact .inr ⟨q, q, rfl, rfl, .refl q⟩

theorem SinksGrow.trans {a b c : List Sink} (hab : SinksGrow a b) (hbc : SinksGrow b c) : SinksGrow a c := by
  intro j
  rcases hab j with ⟨ha, hb⟩ | ⟨q, q', ha, hb, hgrows⟩ <;> rcases hbc j with ⟨hb', hc⟩ | ⟨q₁, q'', hb', hc, hgrows'⟩
  · exact .inl ⟨ha, hc⟩
  · cases hb.symm.trans hb'
  · cases hb.symm.trans hb'
  · cases hb.symm.trans hb'
    exact .inr ⟨q, q'', ha, hc, hgrows.trans hgrows'⟩

/-- A sink that has grown takes the place of the one that was there. -/
theorem SinksGrow.set {sinks : List Sink} {i : Nat} {q q' : Sink} (hq : sinks[i]? = some q) (hgrows : q.Grows q') :
    SinksGrow sinks (sinks.set i q') := by
  intro j
  by_cases hij : i = j
  · subst hij
    obtain ⟨hlt, -⟩ := List.getElem?_eq_some_iff.mp hq
    exact .inr ⟨q, q', hq, List.getElem?_set_self hlt, hgrows⟩
  · rw [List.getElem?_set_ne hij]
    exact SinksGrow.refl sinks j

/-- A sink that serves an `Inst`, after a call to it: the call is the last entry of its WLOG. -/
theorem received_getElem?_self {sinks : List Sink} {j : Nat} {q : Sink} (hq : sinks[j]? = some q) (call : Call) :
    (received sinks (some j) call)[j]? = some { q with wlog := q.wlog ++ [call] } := by
  simp [received, hq]

theorem received_getElem?_ne {sinks : List Sink} {i j : Nat} (hij : i ≠ j) (call : Call) :
    (received sinks (some i) call)[j]? = sinks[j]? := by
  simp [received, hij]

theorem SinksGrow.received (sinks : List Sink) (served : Option Nat) (call : Call) :
    SinksGrow sinks (received sinks served call) := by
  cases served with
  | none => exact .refl sinks
  | some i =>
    intro j
    by_cases hij : i = j
    · subst hij
      cases hq : sinks[i]? with
      | none => exact .inl ⟨rfl, by simp [Machine.received, hq]⟩
      | some q => exact .inr ⟨q, _, rfl, received_getElem?_self hq call, .append q call⟩
    · rw [received_getElem?_ne hij]
      exact SinksGrow.refl sinks j

/-- Every move lets the sinks grow: it touches none, one receives a call, one answers a call, or one does both. -/
theorem Moved.sinksGrow {s t : State} {m : Move} (h : Moved s m t) : SinksGrow s.sinks t.sinks := by
  cases h with
  | held => exact SinksGrow.refl _
  | presented => exact SinksGrow.refl _
  | wasReset => exact SinksGrow.refl _
  | otherIssued =>
    rw [receive_sinks]
    exact SinksGrow.received _ _ _
  | ended => exact SinksGrow.refl _
  | headerIssued =>
    rw [issueCall_sinks]
    exact SinksGrow.received _ _ _
  | unheard hcall => exact SinksGrow.set hcall.sinkAt (.settled hcall _)
  | answered hcall => exact SinksGrow.set hcall.sinkAt (.settled hcall _)
  | payloadIssued hcall =>
    rw [issueCall_sinks]
    exact (SinksGrow.set hcall.sinkAt (.settled hcall _)).trans (SinksGrow.received _ _ _)

theorem step_sinksGrow {s t : State} (ht : step s = .next t) : SinksGrow s.sinks t.sinks := by
  rcases step_cases ht with ⟨-, rfl⟩ | ⟨m, rest, -, hmoved⟩
  · exact SinksGrow.refl _
  · exact hmoved.sinksGrow

/-- Settles O28: the growth of the sinks, read at OUT and WLOG of one of them. -/
theorem sinksOnlyGrow : Obligations.SinksOnlyGrow := by
  intro s t j ht
  unfold State.outOf State.wlogOf
  rcases step_sinksGrow ht j with ⟨hs, ht⟩ | ⟨q, q', hs, ht, hgrows⟩
  · simp [hs, ht]
  · simp only [hs, ht, Option.map_some, Option.getD_some]
    refine ⟨hgrows.out, fun n call hcall => ?_⟩
    obtain ⟨_, hn, a, rfl, hkept⟩ := hgrows.wlog n call hcall
    exact ⟨a, hn, hkept⟩

end Sys2Proof.Machine
end

section
/-! PROOFS. The balance of commands and responses (R24): each event that a step shows is weighed against the change of
PHASE in the same step. -/
namespace Sys2Proof.Machine

/-- Commands accepted less responses given less the one in progress, of CORE `k`. -/
def State.balance (s : State) (k : Nat) : Int := s.accepted k - s.responded k - s.inProgress k

/-- What an event adds to the balance of CORE `k`. -/
def Event.weight (k : Nat) : Event → Int
  | .accept k' _ _ => if k' = k then 1 else 0
  | .respond k' _ => if k' = k then -1 else 0
  | .issue _ _ => 0
  | .answer _ _ => 0

/-- 1 for a busy `Inst`, 0 for an IDLE one (R14). -/
def Inst.busy (c : Inst) : Nat := if c.phase = .idle then 0 else 1

theorem Inst.busy_of_idle {c : Inst} (h : c.phase = .idle) : c.busy = 0 := by simp [Inst.busy, h]

theorem Inst.busy_of_ne {c : Inst} (h : c.phase ≠ .idle) : c.busy = 1 := by simp [Inst.busy, h]

theorem inProgress_of_getElem? {s : State} {k : Nat} {c : Inst} (hc : s.insts[k]? = some c) :
    s.inProgress k = c.busy := by
  simp [State.inProgress, hc, Inst.busy]

/-- The balance reads PHASE and the history. -/
theorem balance_congr {s t : State} (hinsts : t.insts = s.insts) (htrace : t.trace = s.trace) (k : Nat) :
    t.balance k = s.balance k := by
  simp [State.balance, State.accepted, State.responded, State.inProgress, hinsts, htrace]

/-- A step that shows an event. -/
theorem balance_emit (s : State) (e : Event) (k : Nat) : (s.emit e).balance k = s.balance k + e.weight k := by
  have hprogress : (s.emit e).inProgress k = s.inProgress k := rfl
  simp only [State.balance, State.accepted, State.responded, hprogress, emit_trace, List.countP_append,
    List.countP_singleton]
  cases e with
  | accept k' w p => by_cases hk : k' = k <;> simp [isAccept, isRespond, Event.weight, hk]; omega
  | respond k' r => by_cases hk : k' = k <;> simp [isAccept, isRespond, Event.weight, hk]; omega
  | issue k' bytes => simp [isAccept, isRespond, Event.weight]
  | answer k' a => simp [isAccept, isRespond, Event.weight]

/-- A step that replaces CORE `i`. -/
theorem balance_setInst {s : State} {i : Nat} {c c' : Inst} (hc : s.insts[i]? = some c) (k : Nat) :
    (s.setInst i c').balance k = s.balance k + if i = k then (c.busy : Int) - c'.busy else 0 := by
  have haccepted : (s.setInst i c').accepted k = s.accepted k := rfl
  have hresponded : (s.setInst i c').responded k = s.responded k := rfl
  simp only [State.balance, haccepted, hresponded]
  split
  · rename_i hik
    subst hik
    obtain ⟨hlt, -⟩ := List.getElem?_eq_some_iff.mp hc
    have hc' : (s.setInst i c').insts[i]? = some c' := List.getElem?_set_self hlt
    rw [inProgress_of_getElem? hc, inProgress_of_getElem? hc']
    omega
  · rename_i hik
    have hother : (s.setInst i c').inProgress k = s.inProgress k := by
      simp [State.inProgress, List.getElem?_set_ne hik]
    omega

/-- R24: ending a command takes an IDLE `Inst`'s balance down by 1, and keeps a busy one's. -/
theorem balance_finish {s : State} {i : Nat} {c : Inst} (hc : s.insts[i]? = some c) (r : Response) (k : Nat) :
    (finish i c r s).balance k = s.balance k + if i = k then (c.busy : Int) - 1 else 0 := by
  have hidle : c.toIdle.busy = 0 := Inst.busy_of_idle rfl
  rw [finish, balance_emit, balance_setInst hc, hidle, Event.weight]
  split <;> omega

/-- R85, R87, R88: so does issuing a call. -/
theorem balance_issueCall {s : State} {i : Nat} {c : Inst} {p : Phase} (hc : s.insts[i]? = some c) (hp : p ≠ .idle)
    (cur : Cur) (k : Nat) :
    (issueCall i c p cur s).balance k = s.balance k + if i = k then (c.busy : Int) - 1 else 0 := by
  have hbusy : Inst.busy { c with phase := p, cur := some { cur with call := nextCall c s } } = 1 := Inst.busy_of_ne hp
  have hcongr := balance_congr (k := k)
    (s := (s.setInst i { c with phase := p, cur := some { cur with call := nextCall c s } }).emit
      (.issue i (outstandingBytes { c with phase := p } cur)))
    (issueCall_insts i c p cur s) (issueCall_trace i c p cur s)
  rw [hcongr, balance_emit, balance_setInst hc, hbusy, Event.weight]
  simp

/-- R118: taking a request takes the balance up by 1. -/
theorem balance_taken {s : State} {i : Nat} {c : Inst} (hc : s.insts[i]? = some c) (req : Request)
    (port : List Request) (n k : Nat) :
    (taken i c req port n s).balance k = s.balance k + if i = k then 1 else 0 := by
  have hcongr := balance_congr (k := k)
    (s := (s.setInst i { c with port := port }).emit (.accept i req.cmd req.payload))
    (t := taken i c req port n s) rfl rfl
  rw [hcongr, balance_emit, balance_setInst hc, Event.weight]
  simp [Inst.busy]

/-- An answer by itself is neither a command nor a response. -/
theorem balance_heard (i j n : Nat) (q : Sink) (call : Call) (r : Reply) (s : State) (k : Nat) :
    (heard i j n q call r s).balance k = s.balance k := by
  have hsettled : (s.setSink j (settled q n call r)).balance k = s.balance k := balance_congr rfl rfl k
  rw [heard, balance_emit, hsettled, Event.weight, add_zero]

/-- Every move but a reset keeps the balance of every `Inst`. -/
theorem Moved.balance {s t : State} {m : Move} (h : Moved s m t) {k : Nat} (hm : m ≠ .reset k) :
    t.balance k = s.balance k := by
  cases h with
  | held => rfl
  | presented hc => simp [balance_setInst hc, Inst.busy]
  | wasReset hc =>
    have hne : ∀ {i}, Move.reset i ≠ Move.reset k → i ≠ k := fun h hik => h (hik ▸ rfl)
    simp [balance_setInst hc, hne hm]
  | otherIssued => exact balance_congr (receive_insts ..) (receive_trace ..) k
  | @ended i c req port r n hc =>
    have hidle := taken_idleAt hc req port n
    rw [balance_finish hidle.1, Inst.busy_of_idle hidle.2, balance_taken hc.1]
    split <;> omega
  | @headerIssued i c req port cur hc =>
    have hidle := taken_idleAt hc req port (s.draws + 1)
    rw [balance_issueCall hidle.1 (by decide), Inst.busy_of_idle hidle.2, balance_taken hc.1]
    split <;> omega
  | unheard => exact balance_congr rfl rfl k
  | @answered j n r q call i c resp _ _ hc hwaits =>
    have hheard : (heard i j n q call r s).insts[i]? = some c := hc
    have hbusy := Inst.busy_of_ne (waitsFor_iff.mp hwaits).2.1
    rw [balance_finish hheard, balance_heard, hbusy]
    simp
  | @payloadIssued j n r q call i c cur _ _ hc hwaits =>
    have hheard : (heard i j n q call r s).insts[i]? = some c := hc
    have hbusy := Inst.busy_of_ne (waitsFor_iff.mp hwaits).2.1
    rw [balance_issueCall hheard (by decide), balance_heard, hbusy]
    simp

/-- R110: a reset shows no event and leaves no command in progress. -/
theorem Moved.reset_inProgress {s t : State} {k : Nat} (h : Moved s (.reset k) t) :
    t.trace = s.trace ∧ t.inProgress k = 0 := by
  cases h with
  | @wasReset _ c hc =>
    obtain ⟨hlt, -⟩ := List.getElem?_eq_some_iff.mp hc
    have hidle : (s.setInst k c.toIdle).insts[k]? = some c.toIdle := List.getElem?_set_self hlt
    exact ⟨rfl, by rw [inProgress_of_getElem? hidle, Inst.busy_of_idle rfl]⟩

/-- Settles O43: the balance that every move but the reset keeps, written out. -/
theorem eachCommandGetsOneResponse : Obligations.EachCommandGetsOneResponse := by
  intro s t m rest k hagenda _ ht
  rcases step_cases ht with ⟨hnil, -⟩ | ⟨m', rest', hagenda', hmoved⟩
  · cases hnil.symm.trans hagenda
  · cases hagenda.symm.trans hagenda'
    refine ⟨fun hm => ?_, fun hm => ?_⟩
    · have hbalance : t.balance k = s.balance k := hmoved.balance hm
      simp only [State.balance] at hbalance
      omega
    · subst hm
      obtain ⟨htrace, hidle⟩ := hmoved.reset_inProgress
      simp [State.accepted, State.responded, htrace, hidle]

end Sys2Proof.Machine
end

section
/-! PROOFS. What a header in HBUF is (R50 to R56, R82): the encoder's cell writes, read from the first cell on, are the
wire format. -/
namespace Sys2Proof.Machine

/-- Cells written behind a filled beginning lengthen it. -/
theorem writeCells_take (buf : HBuf) (off : Nat) (bs : List Byte) (h : off + bs.length ≤ 14) :
    (writeCells buf off bs).toList.take (off + bs.length) = buf.toList.take off ++ bs := by
  have hfilled : (buf.toList.take off).length = off := by simp; omega
  apply List.ext_getElem
  · simp; omega
  · intro k hk _
    have hk14 : k < 14 := by simp at hk; omega
    have hkend : k < off + bs.length := by simp at hk; omega
    rw [List.getElem_take, Vector.getElem_toList, writeCells_getElem bs buf off k hk14]
    by_cases hoff : k < off
    · rw [dif_neg (by omega), List.getElem_append_left (by omega)]
      simp
    · rw [dif_pos ⟨by omega, hkend⟩, List.getElem_append_right (by omega)]
      simp [hfilled]

/-- R50: byte 0, packed by shifts, is FIN, RSV and OPC side by side. -/
theorem packByte0_eq (d : Desc) : packByte0 d = BitVec.ofBool d.fin ++ d.rsv ++ d.opc := by
  apply BitVec.eq_of_getLsbD_eq
  intro i hi
  simp only [BitVec.getLsbD_append]
  interval_cases i <;> simp [packByte0, bitByte]

/-- R51: byte 1, packed by shifts, is MASK and LC side by side. -/
theorem packByte1_eq (d : Desc) (lc : BitVec 7) : packByte1 d lc = BitVec.ofBool d.masked ++ lc := by
  apply BitVec.eq_of_getLsbD_eq
  intro i hi
  simp only [BitVec.getLsbD_append]
  interval_cases i <;> simp [packByte1, bitByte]

/-- R32: a big-endian byte of a length. -/
theorem ofNat_shiftRight_eq (n k : Nat) : BitVec.ofNat 8 (n >>> k) = BitVec.ofInt 8 ((n : Int) / 2 ^ k) := by
  apply BitVec.eq_of_toNat_eq
  rw [toNat_ofInt_div_pow, BitVec.toNat_ofNat, Nat.shiftRight_eq_div_pow]

/-- R52, R53, R79: the length encoder gives the LC field and the extended length of the wire format. -/
theorem encodeLength_eq (d : Desc) (h : 0 ≤ payloadLength d) :
    encodeLength (payloadLength d) = (wireLc (payloadLength d), wireExt (payloadLength d)) := by
  have htier := lengthTier_cases d
  generalize payloadLength d = l at *
  obtain ⟨n, rfl⟩ := Int.eq_ofNat_of_zero_le h
  rcases htier with ⟨hneg, -⟩ | ⟨-, hle, ht⟩ | ⟨hgt, hle, ht⟩ | ⟨hgt, -, ht⟩
  · omega
  · simp [encodeLength, wireLc, wireExt, ht, hle]
  · have hlong : ¬ (n : Int) ≤ 125 := by omega
    simp [encodeLength, wireLc, wireExt, ht, hle, hlong, beBytes, List.range_succ, ofNat_shiftRight_eq]
  · have hlong : ¬ (n : Int) ≤ 125 := by omega
    have hlonger : ¬ (n : Int) ≤ 65535 := by omega
    simp [encodeLength, wireLc, wireExt, ht, hlong, hlonger, beBytes, List.range_succ, ofNat_shiftRight_eq]

/-- R53: the extended length has at most eight bytes. -/
theorem wireExt_length_le (l : Int) : (wireExt l).length ≤ 8 := by
  unfold wireExt
  split_ifs <;> simp

/-- The wire format without the mask key. -/
def wireUnkeyed (d : Desc) : List Byte :=
  [packByte0 d, packByte1 d (wireLc (payloadLength d))] ++ wireExt (payloadLength d)

theorem wireHeader_eq (d : Desc) : wireHeader d = wireUnkeyed d ++ wireKey d := by
  rw [wireUnkeyed, packByte0_eq, packByte1_eq]
  rfl

theorem wireUnkeyed_length (d : Desc) : (wireUnkeyed d).length = 2 + (wireExt (payloadLength d)).length := by
  simp only [wireUnkeyed, List.length_append, List.length_cons, List.length_nil]

theorem wireHeader_length_le (d : Desc) : (wireHeader d).length ≤ 14 := by
  have hext := wireExt_length_le (payloadLength d)
  rw [wireHeader_eq, List.length_append, wireUnkeyed_length]
  unfold wireKey
  split_ifs <;> simp <;> omega

/-- R82: HBUF after the writes of the base bytes and the extended length. -/
def unkeyedCells (d : Desc) (buf : HBuf) : HBuf :=
  writeCells (writeCells (writeCells buf 0 [packByte0 d]) 1 [packByte1 d (wireLc (payloadLength d))]) 2
    (wireExt (payloadLength d))

theorem unkeyedCells_take (d : Desc) (buf : HBuf) :
    (unkeyedCells d buf).toList.take (wireUnkeyed d).length = wireUnkeyed d := by
  have hext := wireExt_length_le (payloadLength d)
  have hbyte0 := writeCells_take buf 0 [packByte0 d] (by simp)
  have hbyte1 := writeCells_take (writeCells buf 0 [packByte0 d]) 1 [packByte1 d (wireLc (payloadLength d))] (by simp)
  simp only [List.length_singleton, Nat.zero_add, Nat.reduceAdd] at hbyte0 hbyte1
  rw [unkeyedCells, wireUnkeyed_length, writeCells_take _ 2 _ (by omega), hbyte1, hbyte0]
  simp [wireUnkeyed]

/-- R82: the encoder's runs of cell writes, each behind the one before. -/
theorem encodeHeader_eq (d : Desc) (buf : HBuf) (h : 0 ≤ payloadLength d) :
    encodeHeader d buf = some (writeCells (unkeyedCells d buf) (wireUnkeyed d).length (wireKey d),
      Fin.ofNat 15 (wireHeader d).length) := by
  have hvalid : lengthTier (payloadLength d) ≠ .invalid := by
    rcases lengthTier_cases d with ⟨hneg, -⟩ | ⟨-, -, ht⟩ | ⟨-, -, ht⟩ | ⟨-, -, ht⟩
    · omega
    all_goals simp [ht]
  rw [encodeHeader, if_neg hvalid, encodeLength_eq d h, wireHeader_eq, List.length_append, wireUnkeyed_length]
  cases hm : d.masked <;> simp [wireKey, hm, unkeyedCells, keyList, writeCells]

/-- A negative length has no header (R82). -/
theorem encodeHeader_negative {d : Desc} (buf : HBuf) (h : payloadLength d < 0) : encodeHeader d buf = none := by
  simp [encodeHeader, lengthTier, h]

/-- R50 to R56: what the encoder leaves in `HBUF[0..HLEN)` is the wire format of a length that is not negative. -/
theorem headerBytes_of_encodeHeader {d : Desc} {buf buf' : HBuf} {hlen : Fin 15}
    (henc : encodeHeader d buf = some (buf', hlen)) : 0 ≤ d.len.toInt ∧ headerBytes buf' hlen = wireHeader d := by
  have hle := wireHeader_length_le d
  by_cases h : payloadLength d < 0
  · simp [encodeHeader_negative buf h] at henc
  · rw [encodeHeader_eq d buf (by omega)] at henc
    cases henc
    refine ⟨not_lt.mp h, ?_⟩
    have hhlen : (Fin.ofNat 15 (wireHeader d).length).val = (wireHeader d).length := Nat.mod_eq_of_lt (by omega)
    rw [headerBytes, hhlen, wireHeader_eq, List.length_append,
      writeCells_take _ _ _ (by rw [← List.length_append, ← wireHeader_eq]; exact hle), unkeyedCells_take]

end Sys2Proof.Machine
end

section
/-! PROOFS. The invariant of the system (R28, R35, R42), taken apart into what it says of each `Inst`, and kept by each
way in which a move changes the `Inst`s and the sinks. -/
namespace Sys2Proof.Machine

/-! ## The invariant of one `Inst` -/

/-- What `SystemInv` says of CORE `k`, which is `c`. -/
structure InstInv (s : State) (k : Nat) (c : Inst) : Prop where
  current : CurrentCommandOk c
  call    : OutstandingCallOk s k c
  order   : HeaderBeforePayload s k c

theorem systemInv_iff {s : State} : SystemInv s ↔ ∀ (k : Nat) c, s.insts[k]? = some c → InstInv s k c :=
  ⟨fun h k c hc => ⟨h.current k c hc, h.call k c hc, h.order k c hc⟩,
    fun h => ⟨fun k c hc => (h k c hc).current, fun k c hc => (h k c hc).call, fun k c hc => (h k c hc).order⟩⟩

/-- R28: an IDLE `Inst` without a current command meets the invariant, whatever the sinks hold. -/
theorem InstInv.idle {c : Inst} (hphase : c.phase = .idle) (hcur : c.cur = none) (s : State) (k : Nat) :
    InstInv s k c where
  current := (currentCommandOk_none hcur).mpr hphase
  call cur _ _ hcur' := by cases hcur.symm.trans hcur'
  order cur _ _ _ hcur' := by cases hcur.symm.trans hcur'

/-- The invariant says nothing of the port. -/
theorem InstInv.port {s : State} {k : Nat} {c : Inst} (h : InstInv s k c) (port : List Request) :
    InstInv s k { c with port := port } :=
  ⟨h.current, h.call, h.order⟩

/-- A current command is absent exactly in IDLE. -/
theorem CurrentCommandOk.phase_ne_idle {c : Inst} {cur : Cur} (h : CurrentCommandOk c) (hcur : c.cur = some cur) :
    c.phase ≠ .idle := by
  obtain ⟨-, -, ⟨hphase, -⟩ | ⟨hphase, -⟩ | ⟨hphase, -⟩⟩ := (currentCommandOk_some hcur).mp h <;> simp [hphase]

/-! ## Changes of the sinks -/

/-- The WLOG entry at place `n` of sink `j`, if there is one, stays as it is. -/
def EntryStays (sinks sinks' : List Sink) (j n : Nat) : Prop :=
  ∀ q q' call, sinks[j]? = some q → sinks'[j]? = some q' → q.wlog[n]? = some call → q'.wlog[n]? = some call

/-- An `Inst` keeps the invariant while the sinks grow, as long as its own call is not answered. -/
theorem InstInv.grow {s t : State} {k : Nat} {c : Inst} (h : InstInv s k c) (hgrow : SinksGrow s.sinks t.sinks)
    (hstays : ∀ cur j, c.cur = some cur → c.sink = some j → EntryStays s.sinks t.sinks j cur.call) : InstInv t k c where
  current := h.current
  call cur j q' hcur hj hq' := by
    rcases hgrow j with ⟨-, hnone⟩ | ⟨q, q₁, hq, -, -⟩
    · cases hnone.symm.trans hq'
    · exact hstays cur j hcur hj q q' _ hq hq' (h.call cur j q hcur hj hq)
  order cur j q' hphase hcur hj hq' := by
    rcases hgrow j with ⟨-, hnone⟩ | ⟨q, q₁, hq, hq₁, hgrows⟩
    · cases hnone.symm.trans hq'
    · cases hq₁.symm.trans hq'
      obtain ⟨n, hlt, hn⟩ := h.order cur j q hphase hcur hj hq
      obtain ⟨call, hcall, hkept⟩ := hgrows.wlog n _ hn
      rw [hkept.eq_of_answered (by simp)] at hcall
      exact ⟨n, hlt, hcall⟩

theorem entryStays_refl (sinks : List Sink) (j n : Nat) : EntryStays sinks sinks j n := by
  intro q q' call hq hq' hcall
  cases hq.symm.trans hq'
  exact hcall

/-- The invariant of an `Inst` reads the sinks alone. -/
theorem InstInv.congr {s t : State} {k : Nat} {c : Inst} (h : InstInv s k c) (ht : t.sinks = s.sinks) : InstInv t k c :=
  h.grow (ht ▸ SinksGrow.refl _) fun cur j _ _ => ht ▸ entryStays_refl _ j cur.call

/-- A received call answers none. -/
theorem entryStays_received (sinks : List Sink) (served : Option Nat) (new : Call) (j n : Nat) :
    EntryStays sinks (received sinks served new) j n := by
  intro q q' call hq hq' hcall
  cases served with
  | none => exact entryStays_refl sinks j n q q' call hq hq' hcall
  | some i =>
    by_cases hij : i = j
    · subst hij
      cases (received_getElem?_self hq new).symm.trans hq'
      exact getElem?_wlog_append hcall new
    · rw [received_getElem?_ne hij] at hq'
      exact entryStays_refl sinks j n q q' call hq hq' hcall

/-- An answer answers one call. -/
theorem entryStays_settled {sinks : List Sink} {i m : Nat} {q : Sink} (hq : sinks[i]? = some q) (answered : Call)
    (r : Reply) {j n : Nat} (hne : ¬ (i = j ∧ m = n)) :
    EntryStays sinks (sinks.set i (settled q m answered r)) j n := by
  intro p p' call hp hp' hcall
  by_cases hij : i = j
  · subst hij
    cases hq.symm.trans hp
    obtain ⟨hlt, -⟩ := List.getElem?_eq_some_iff.mp hq
    cases (List.getElem?_set_self hlt).symm.trans hp'
    rw [settled_wlog, List.getElem?_set_ne (fun hmn => hne ⟨rfl, hmn⟩)]
    exact hcall
  · rw [List.getElem?_set_ne hij] at hp'
    exact entryStays_refl sinks j n p p' call hp hp' hcall

/-- R35: an `Inst` keeps the invariant when a sink receives a call. -/
theorem InstInv.received {s t : State} {k : Nat} {c : Inst} (h : InstInv s k c) {served : Option Nat} {new : Call}
    (ht : t.sinks = Machine.received s.sinks served new) : InstInv t k c :=
  h.grow (ht ▸ SinksGrow.received _ _ _) fun cur j _ _ => ht ▸ entryStays_received _ _ _ j cur.call

/-- R26: an `Inst` keeps the invariant when a sink answers a call that it does not wait for. -/
theorem InstInv.settled {s t : State} {k : Nat} {c : Inst} (h : InstInv s k c) {j n : Nat} {q : Sink} {call : Call}
    (hcall : OpenCall s j n q call) {r : Reply} (hwaits : waitsFor c j n = false)
    (ht : t.sinks = s.sinks.set j (Machine.settled q n call r)) : InstInv t k c := by
  refine h.grow (ht ▸ SinksGrow.set hcall.sinkAt (.settled hcall r)) fun cur i hcur hi => ht ▸ ?_
  refine entryStays_settled hcall.sinkAt call r fun ⟨hij, hn⟩ => ?_
  have hwaits' : waitsFor c j n = true :=
    waitsFor_iff.mpr ⟨hij ▸ hi, h.current.phase_ne_idle hcur, cur, hcur, hn.symm⟩
  rw [hwaits] at hwaits'
  cases hwaits'

/-- R35: the call that an `Inst` waits for is its own, with its bytes. -/
theorem InstInv.awaited {s : State} {k : Nat} {c : Inst} (h : InstInv s k c) {j n : Nat} {q : Sink} {call : Call}
    (hcall : OpenCall s j n q call) (hwaits : waitsFor c j n = true) :
    ∃ cur, c.cur = some cur ∧ call = { writer := .core k, bytes := outstandingBytes c cur, answer := none } := by
  obtain ⟨hj, -, cur, hcur, rfl⟩ := waitsFor_iff.mp hwaits
  exact ⟨cur, hcur, Option.some.inj (hcall.callAt.symm.trans (h.call cur j q hcur hj hcall.sinkAt))⟩

/-- R106: an `Inst` waits for the answer to no other writer's call. -/
theorem InstInv.not_waitsFor {s : State} {k : Nat} {c : Inst} (h : InstInv s k c) {j n : Nat} {q : Sink} {call : Call}
    (hcall : OpenCall s j n q call) (hwriter : call.writer ≠ .core k) : waitsFor c j n = false := by
  refine Bool.eq_false_iff.mpr fun hwaits => ?_
  obtain ⟨cur, -, rfl⟩ := h.awaited hcall hwaits
  exact hwriter rfl

/-! ## The issue of a write call -/

/-- R35, R42: an `Inst` that issues a call meets the invariant, if the command it latches is one that waits in its
new phase, and if a payload call has its answered header call before it. -/
theorem InstInv.issueCall {s : State} {k : Nat} {c : Inst} {p : Phase} {cur : Cur}
    (hcur : CurrentCommandOk { c with phase := p, cur := some { cur with call := nextCall c s } })
    (hheader : p = .waitPay → ∀ j q, c.sink = some j → s.sinks[j]? = some q →
      ∃ n : Nat, q.wlog[n]? = some { writer := .core k, bytes := wireHeader cur.desc, answer := some .ok }) :
    InstInv (issueCall k c p cur s) k { c with phase := p, cur := some { cur with call := nextCall c s } } := by
  have hsink : ∀ j q', c.sink = some j → (Machine.issueCall k c p cur s).sinks[j]? = some q' →
      ∃ q, s.sinks[j]? = some q ∧ nextCall c s = q.wlog.length ∧ q' = { q with wlog := q.wlog ++
        [{ writer := .core k, bytes := outstandingBytes { c with phase := p } cur, answer := none }] } := by
    intro j q' hj hq'
    rw [issueCall_sinks, hj] at hq'
    cases hq : s.sinks[j]? with
    | none => simp [Machine.received, hq] at hq'
    | some q =>
      cases (received_getElem?_self hq _).symm.trans hq'
      exact ⟨q, rfl, nextCall_eq hj hq, rfl⟩
  refine ⟨hcur, fun cur' j q' hcur' hj hq' => ?_, fun cur' j q' hphase hcur' hj hq' => ?_⟩
  · cases hcur'
    obtain ⟨q, -, hlen, rfl⟩ := hsink j q' hj hq'
    simp only [hlen]
    exact List.getElem?_concat_length
  · cases hcur'
    obtain ⟨q, hq, hlen, rfl⟩ := hsink j q' hj hq'
    obtain ⟨n, hn⟩ := hheader hphase j q hj hq
    obtain ⟨hlt, -⟩ := List.getElem?_eq_some_iff.mp hn
    exact ⟨n, hlen ▸ hlt, getElem?_wlog_append hn _⟩

/-- R85, R87: the command that the acceptance step latches waits in WAIT_HDR with its header in HBUF. -/
theorem Latched.currentCommandOk {cur : Cur} {draw : Nat} (h : Latched cur draw) (c : Inst) (n : Nat) :
    CurrentCommandOk { c with phase := .waitHdr, cur := some { cur with call := n } } := by
  obtain ⟨hlen, hheader⟩ := headerBytes_of_encodeHeader h.header
  refine (currentCommandOk_some (cur := { cur with call := n }) rfl).mpr ⟨hlen, hheader, ?_⟩
  rcases h.operation with ⟨hop, hpayload⟩ | ⟨hop, hpayload⟩
  · exact .inl ⟨rfl, hop, hpayload⟩
  · exact .inr (.inl ⟨rfl, hop, hpayload⟩)

/-! ## The invariant of the system -/

/-- A step that replaces CORE `k` keeps the invariant if it holds of the new one and stays true of the others. -/
theorem SystemInv.set {s t : State} {k : Nat} {c' : Inst} (hs : SystemInv s) (hinsts : t.insts = s.insts.set k c')
    (hown : InstInv t k c') (hothers : ∀ i c, i ≠ k → InstInv s i c → InstInv t i c) : SystemInv t := by
  refine systemInv_iff.mpr fun i c hc => ?_
  rw [hinsts, List.getElem?_set] at hc
  split at hc
  · rename_i hik
    subst hik
    split at hc
    · cases hc
      exact hown
    · cases hc
  · rename_i hik
    exact hothers i c (Ne.symm hik) (systemInv_iff.mp hs i c hc)

/-- A step that touches no `Inst` keeps the invariant if it stays true of each. -/
theorem SystemInv.same {s t : State} (hs : SystemInv s) (hinsts : t.insts = s.insts)
    (hall : ∀ i c, s.insts[i]? = some c → InstInv s i c → InstInv t i c) : SystemInv t :=
  systemInv_iff.mpr fun i c hc => hall i c (hinsts ▸ hc) (systemInv_iff.mp hs i c (hinsts ▸ hc))

/-- R28: an `Inst` that becomes IDLE needs nothing of the sinks. -/
theorem SystemInv.toIdle {s t : State} {k : Nat} {c : Inst} (hs : SystemInv s) (hinsts : t.insts = s.insts.set k c.toIdle)
    (hothers : ∀ i c, i ≠ k → InstInv s i c → InstInv t i c) : SystemInv t :=
  hs.set hinsts (.idle rfl rfl t k) hothers

/-- R88, R89: an answer to CORE `k` touches the call of no other `Inst`. -/
theorem InstInv.heard {s : State} {i k : Nat} {c : Inst} (h : InstInv s i c) {j n : Nat} {q : Sink} {call : Call}
    (hcall : OpenCall s j n q call) (hk : call.writer = .core k) (hik : i ≠ k) (r : Reply) :
    InstInv (heard k j n q call r s) i c := by
  refine h.settled hcall (h.not_waitsFor hcall ?_) rfl
  rw [hk]
  exact fun he => hik (Writer.core.inj he).symm

/-- R42, R88: the header call of a WRITE_FRAME, answered `Ok`, stands in the WLOG when the payload is issued. -/
theorem InstInv.header_answered {s : State} {k : Nat} {c : Inst} {cur : Cur} (h : InstInv s k c) {j n : Nat} {q : Sink}
    {call : Call} {r : Reply} (hcall : OpenCall s j n q call) (hwaits : waitsFor c j n = true)
    (hphase : c.phase = .waitHdr) (hcur : c.cur = some cur) (hok : r.seen = .ok) :
    ∀ i p, c.sink = some i → (Machine.heard k j n q call r s).sinks[i]? = some p →
      ∃ m : Nat, p.wlog[m]? = some { writer := .core k, bytes := wireHeader cur.desc, answer := some .ok } := by
  intro i p hi hp
  obtain ⟨hj, -, -⟩ := waitsFor_iff.mp hwaits
  cases hj.symm.trans hi
  obtain ⟨hlt, -⟩ := List.getElem?_eq_some_iff.mp hcall.sinkAt
  cases (List.getElem?_set_self hlt).symm.trans hp
  obtain ⟨hn, -⟩ := List.getElem?_eq_some_iff.mp hcall.callAt
  obtain ⟨cur', hcur', rfl⟩ := h.awaited hcall hwaits
  cases hcur.symm.trans hcur'
  obtain ⟨-, hheader, -⟩ := (currentCommandOk_some hcur).mp h.current
  refine ⟨n, ?_⟩
  rw [settled_wlog, List.getElem?_set_self hn, hok]
  simp [outstandingBytes, hphase, hheader]

/-- Every move keeps the invariant. -/
theorem Moved.systemInv {s t : State} {m : Move} (h : Moved s m t) (hs : SystemInv s) : SystemInv t := by
  have hinst := systemInv_iff.mp hs
  cases h with
  | held => exact hs
  | presented hc => exact hs.set rfl (((hinst _ _ hc).port _).congr rfl) fun i c _ hi => hi.congr rfl
  | wasReset => exact hs.toIdle rfl fun i c _ hi => hi.congr rfl
  | otherIssued => exact hs.same (receive_insts ..) fun i c _ hi => hi.received (receive_sinks ..)
  | @ended k c _ port =>
    exact hs.toIdle (k := k) (c := { c with port := port }) (by simp) fun i c _ hi => hi.congr rfl
  | headerIssued _ hcur =>
    refine hs.set (by simp) (.issueCall (hcur.currentCommandOk _ _) (by simp)) fun i c _ hi => ?_
    exact hi.received (issueCall_sinks ..)
  | @unheard j n r q call hcall hunheard =>
    refine hs.same rfl fun i c hc hi => hi.settled hcall ?_ rfl
    by_cases hwriter : call.writer = .core i
    · exact hunheard i c hwriter hc hi.current
    · exact hi.not_waitsFor hcall hwriter
  | answered hcall hk => exact hs.toIdle rfl fun i c hik hi => (hi.heard hcall hk hik _).congr rfl
  | @payloadIssued j n r q call k c cur hcall hk hc hwaits hphase hcur hop hpayload hok =>
    have hown := hinst k c hc
    obtain ⟨hlen, hheader, -⟩ := (currentCommandOk_some hcur).mp hown.current
    have hwaitPay : ∀ m, CurrentCommandOk { c with phase := .waitPay, cur := some { cur with call := m } } := fun m =>
      (currentCommandOk_some (cur := { cur with call := m }) rfl).mpr
        ⟨hlen, hheader, .inr (.inr ⟨rfl, hop, hpayload⟩)⟩
    refine hs.set (issueCall_insts ..) (.issueCall (hwaitPay _) fun _ => ?_) fun i c hik hi => ?_
    · exact hown.header_answered hcall hwaits hphase hcur hok
    · exact (hi.heard hcall hk hik r).received (issueCall_sinks ..)

/-- Settles O42: every move keeps the invariant, whatever moves are to come after it. -/
theorem everyStepKeepsTheInvariant : Obligations.EveryStepKeepsTheInvariant := by
  intro s t hs ht
  rcases step_cases ht with ⟨-, rfl⟩ | ⟨m, rest, -, hmoved⟩
  · exact hs
  · exact hmoved.systemInv (hs.same rfl fun i c _ hi => hi.congr rfl)

/-- Settles O41: every `Inst` of a system at reset is IDLE without a current command. -/
theorem invariantHoldsAtReset : Obligations.InvariantHoldsAtReset := by
  intro nSinks wiring
  refine systemInv_iff.mpr fun k c hc => ?_
  obtain ⟨sink, -, rfl⟩ := List.mem_map.mp (List.mem_of_getElem? hc)
  exact .idle rfl rfl _ k

end Sys2Proof.Machine
end

section
/-! PROOFS. The mask key of an unmasked command (R20, R81): it reaches DESC.KEY of the current command, and nothing else. -/
namespace Sys2Proof.Machine

/-- A descriptor with another mask key. -/
def Desc.withKey (key : Key) (d : Desc) : Desc := { d with key := key }

/-- R20: the size function reads no key. -/
theorem headerSize_withKey (key : Key) (d : Desc) : headerSize (d.withKey key) = headerSize d := rfl

/-- R20, R81: without MASK the encoder reads no key. -/
theorem encodeHeader_withKey (key : Key) {d : Desc} (buf : HBuf) (hm : d.masked = false) :
    encodeHeader (d.withKey key) buf = encodeHeader d buf := by
  simp [encodeHeader, Desc.withKey, hm, payloadLength, packByte0, packByte1]

theorem descOf_withKey (key : Key) (h : Header) : descOf { h with key := key } = (descOf h).withKey key := rfl

/-- An `Inst` with another key in DESC, if it holds one. -/
def Inst.withKey (key : Key) (c : Inst) : Inst :=
  { c with cur := c.cur.map fun u => { u with desc := u.desc.withKey key } }

/-- States with equal fields are equal. -/
theorem State.eq_of_fields {s t : State} (hinsts : s.insts = t.insts) (hsinks : s.sinks = t.sinks)
    (hagenda : s.agenda = t.agenda) (hturn : s.turn = t.turn) (htrace : s.trace = t.trace) (hdraws : s.draws = t.draws) :
    s = t := by
  cases s; cases t; simp_all

/-- Replacing the key of the `Inst` that a step has replaced. -/
theorem withCurrentKey_insts {s : State} {k : Nat} {c : Inst} {l : List Inst} (hinsts : s.insts = l.set k c) (key : Key) :
    (withCurrentKey k key s).insts = l.set k (c.withKey key) := by
  simp only [withCurrentKey, hinsts, List.set_eq_modify, List.modify_modify_eq]
  rfl

/-- An `Inst` that becomes IDLE has no key to replace. -/
theorem withCurrentKey_finish (key : Key) (k : Nat) (c : Inst) (r : Response) (s : State) :
    withCurrentKey k key (finish k c r s) = finish k c r s :=
  State.eq_of_fields (withCurrentKey_insts (finish_insts ..) key) rfl rfl rfl rfl rfl

/-- The bytes of a write call are in HBUF or PAYLOAD; DESC is not read again. -/
theorem outstandingBytes_withDesc (c : Inst) (cur : Cur) (d : Desc) :
    outstandingBytes c { cur with desc := d } = outstandingBytes c cur := rfl

/-- Another key comes to be latched, and the call that is issued does not change. -/
theorem withCurrentKey_issueCall (key : Key) (k : Nat) (c : Inst) (p : Phase) (cur : Cur) (s : State) :
    withCurrentKey k key (issueCall k c p cur s) =
      issueCall k c p { cur with desc := cur.desc.withKey key } s := by
  apply State.eq_of_fields
  · rw [issueCall_insts]
    exact withCurrentKey_insts (issueCall_insts ..) key
  · rw [issueCall_sinks, outstandingBytes_withDesc]
    exact issueCall_sinks ..
  · exact (issueCall_agenda ..).trans (issueCall_agenda ..).symm
  · exact (issueCall_turn ..).trans (issueCall_turn ..).symm
  · rw [issueCall_trace, outstandingBytes_withDesc]
    exact issueCall_trace ..
  · exact (issueCall_draws ..).trans (issueCall_draws ..).symm

/-- R81, R85, R87: without MASK another key reaches DESC.KEY alone. -/
theorem startWrite_withKey (key : Key) {d : Desc} (hm : d.masked = false) (op : Op) (payload : Option (List Byte))
    (c : Inst) (s : State) :
    startWrite op (d.withKey key) payload c s = withCurrentKey s.turn key (startWrite op d payload c s) := by
  have hsame := encodeHeader_withKey key (staleBuf s.draws) hm
  cases henc : encodeHeader d (staleBuf s.draws) with
  | none =>
    rw [henc] at hsame
    rw [startWrite_of_none hsame, startWrite_of_none henc, withCurrentKey_finish]
  | some b =>
    rw [henc] at hsame
    rw [startWrite_of_some hsame, startWrite_of_some henc, withCurrentKey_issueCall]

/-- Acceptance of a command with another key, from what its meaning does with one. -/
theorem accepting_withKey {s t t' : State} {h : Header} {c : Inst} {run : Inst → Desc → Result} (key : Key)
    (hc : IdleAt s s.turn c) (ht : accepting s h run = .next t)
    (hrun : run c (descOf h) = .next t → run c ((descOf h).withKey key) = .next t') :
    accepting s { h with key := key } run = .next t' := by
  rcases accepting_next ht with ⟨c', hc', hbusy, -⟩ | ⟨c', ⟨hc', -⟩, hr, ht'⟩ <;> cases hc.1.symm.trans hc'
  · exact absurd hc.2 hbusy
  · rw [accepting_idle (h := { h with key := key }) hc hr, descOf_withKey]
    exact hrun ht'

/-- Settles O24: a command that ends at once answers the same, and one that issues its header issues the same header. -/
theorem keyIsIgnoredWhenUnmasked : Obligations.KeyIsIgnoredWhenUnmasked := by
  intro s t c i key hc hm ht
  cases i with
  | size h =>
    refine accepting_withKey key hc ht fun hrun => ?_
    rw [headerSize_withKey]
    cases hsize : headerSize (descOf h) with
    | none =>
      simp only [hsize] at hrun ⊢
      cases hrun
      rw [raiseError_eq, withCurrentKey_finish]
    | some n =>
      simp only [hsize] at hrun ⊢
      cases hrun
      rw [withCurrentKey_finish]
  | encode h =>
    refine accepting_withKey key hc ht fun hrun => ?_
    rw [encodeHeader_withKey key (d := descOf h) (staleBuf s.draws) hm]
    cases henc : encodeHeader (descOf h) (staleBuf s.draws) with
    | none =>
      simp only [henc] at hrun ⊢
      cases hrun
      rw [raiseError_eq, withCurrentKey_finish]
    | some b =>
      simp only [henc] at hrun ⊢
      cases hrun
      exact congrArg _ (withCurrentKey_finish key s.turn c _ { s with draws := s.draws + 1 }).symm
  | writeHeader h =>
    refine accepting_withKey key hc ht fun hrun => ?_
    cases hrun
    rw [startWrite_withKey key hm]
  | writeFrame h p =>
    refine accepting_withKey key hc ht fun hrun => ?_
    cases hrun
    rw [startWrite_withKey key hm]

end Sys2Proof.Machine
end

section
/-! PROOFS. The state at reset (R29), the acceptance move (R12, R59, R118), and the codes of PHASE and STATUS (R14, R65). -/
namespace Sys2Proof.Machine

/-- R29, R110: every `Inst` of a system at reset is a fresh one. -/
theorem mem_system_insts {nSinks : Nat} {wiring : Config.Wiring} {c : Inst}
    (hc : c ∈ (State.system nSinks wiring).insts) : ∃ sink, c = Inst.fresh sink := by
  obtain ⟨sink, -, rfl⟩ := List.mem_map.mp hc
  exact ⟨sink, rfl⟩

/-- Settles O35: every `Inst` of a system at reset is fresh, and its history is empty. -/
theorem resetValues : Obligations.ResetValues := by
  refine ⟨fun nSinks wiring c hc => ?_, fun nSinks wiring => ⟨rfl, ?_⟩, rfl⟩
  · obtain ⟨sink, rfl⟩ := mem_system_insts hc
    exact ⟨rfl, rfl, rfl⟩
  · exact List.length_map ..

/-- R118: the acceptance step of an IDLE `Inst` with a request at its port. -/
theorem stepAccept_of_idleAt {s : State} {k : Nat} {c : Inst} {r : Request} {more : List Request} (hc : IdleAt s k c)
    (hport : c.port = r :: more) :
    stepAccept k s = exec (decode r.cmd r.payload) (takeRequest k c r more s) := by
  simp only [stepAccept, fetch_command hc hport]

/-- Settles O37: the move at the head of the agenda takes the request, and the state in which it is taken is the one
written out. -/
theorem stepRunsTheDecodedCommand : Obligations.StepRunsTheDecodedCommand := by
  unfold Obligations.StepRunsTheDecodedCommand
  intro s rest k c w p more hagenda hc hport
  have hidle : IdleAt { s with agenda := rest } k c := hc
  have haccept := stepAccept_of_idleAt hidle hport
  rw [step_cons hagenda]
  exact haccept

/-- Settles O46: the codes, read off the two tables. -/
theorem phaseAndStatusCodes : Obligations.PhaseAndStatusCodes := ⟨rfl, rfl, rfl, rfl, rfl, rfl⟩

end Sys2Proof.Machine
end

section
/-! PROOFS. What the acceptance step and a sink's answer leave unchanged (R26, R38, R39), read off the two ways in which
a command goes on: it ends, or it issues a write call. -/
namespace Sys2Proof.Machine

/-! ## Places of a list -/

/-- The place of an entry that is there holds what is put there. -/
theorem getElem?_set_of_some {α : Type} {l : List α} {i : Nat} {a : α} (h : l[i]? = some a) (b : α) :
    (l.set i b)[i]? = some b :=
  List.getElem?_set_self (List.getElem?_eq_some_iff.mp h).1

/-- Putting the entry of a place back into it changes nothing. -/
theorem set_of_getElem? {α : Type} {l : List α} {i : Nat} {a : α} (h : l[i]? = some a) : l.set i a = l := by
  obtain ⟨hlt, rfl⟩ := List.getElem?_eq_some_iff.mp h
  exact List.set_getElem_self hlt

/-! ## SIZE and ENCODE -/

/-- R72, R84: SIZE and ENCODE end in their acceptance step. -/
theorem exec_size_or_encode_ends {s t : State} {c : Inst} {h : Header} {i : Instr} (hi : i = .size h ∨ i = .encode h)
    (hc : IdleAt s s.turn c) (ht : exec i s = .next t) : ∃ r n, t = finish s.turn c r { s with draws := n } := by
  rcases hi with rfl | rfl
  · have hrun := accepting_idle_next hc ht
    split at hrun <;> cases hrun
    · exact ⟨errorResponse .invalidLength, s.draws, rfl⟩
    · exact ⟨sizeResponse _, s.draws, rfl⟩
  · have hrun := accepting_idle_next hc ht
    split at hrun <;> cases hrun
    · exact ⟨errorResponse .invalidLength, s.draws, rfl⟩
    · exact ⟨encodeResponse _ _, s.draws + 1, rfl⟩

/-- Settles O25: the frame of the end of a command. -/
theorem sizeAndEncodeFrame : Obligations.SizeAndEncodeFrame := by
  intro s t c h i hi hc ht
  obtain ⟨r, n, rfl⟩ := exec_size_or_encode_ends hi hc ht
  exact ⟨rfl, rfl, rfl, fun k hk => List.getElem?_set_ne (Ne.symm hk), getElem?_set_of_some hc.1 _, r, rfl⟩

/-! ## The acceptance of a writing command -/

/-- A sink that does not serve the issuer receives nothing. -/
theorem received_getElem?_of_ne {served : Option Nat} {j : Nat} (hj : served ≠ some j) (sinks : List Sink) (call : Call) :
    (received sinks served call)[j]? = sinks[j]? := by
  cases served with
  | none => rfl
  | some i => exact received_getElem?_ne (fun hij => hj (congrArg some hij)) call

/-- R26, R35: a sink that receives a call appends it to its WLOG, and its OUT stays (log entry 4). -/
theorem received_getElem?_eq_map (sinks : List Sink) (served : Option Nat) (call : Call) (j : Nat) :
    ∃ calls : List Call, calls.length ≤ 1 ∧
      (received sinks served call)[j]? = sinks[j]?.map fun q => { q with wlog := q.wlog ++ calls } := by
  by_cases hj : served = some j
  · subst hj
    exact ⟨[call], le_rfl, List.getElem?_modify_eq ..⟩
  · refine ⟨[], Nat.zero_le 1, ?_⟩
    rw [received_getElem?_of_ne hj]
    simp

theorem outOf_of_received {s t : State} {served : Option Nat} {call : Call}
    (ht : t.sinks = received s.sinks served call) (j : Nat) : t.outOf j = s.outOf j := by
  obtain ⟨calls, -, hsink⟩ := received_getElem?_eq_map s.sinks served call j
  cases hq : s.sinks[j]? <;> simp [State.outOf, ht, hsink, hq]

theorem wlogOf_of_received {s t : State} {served : Option Nat} {call : Call}
    (ht : t.sinks = received s.sinks served call) (j : Nat) :
    ∃ calls, t.wlogOf j = s.wlogOf j ++ calls ∧ calls.length ≤ 1 := by
  obtain ⟨calls, hlen, hsink⟩ := received_getElem?_eq_map s.sinks served call j
  cases hq : s.sinks[j]? with
  | none => exact ⟨[], by simp [State.wlogOf, ht, hsink, hq]⟩
  | some q => exact ⟨calls, by simp [State.wlogOf, ht, hsink, hq], hlen⟩

/-- Settles O26: a command that ends touches no sink, and one that issues its header lets the sink that serves it receive
one call. -/
theorem writeAcceptanceFrame : Obligations.WriteAcceptanceFrame := by
  intro s t c h p i _ hc ht
  have hothers : ∀ (c' : Inst) (k : Nat), k ≠ s.turn → (s.insts.set s.turn c')[k]? = s.insts[k]? :=
    fun c' k hk => List.getElem?_set_ne (Ne.symm hk)
  rcases exec_endsOrIssues hc ht with ⟨r, n, rfl⟩ | ⟨cur, -, rfl⟩
  · exact ⟨fun _ => rfl, fun _ _ => rfl, fun j => ⟨[], (List.append_nil _).symm, Nat.zero_le 1⟩, rfl, rfl, hothers _,
      ⟨_, getElem?_set_of_some hc.1 _, rfl, rfl⟩, _, rfl⟩
  · have hsinks := issueCall_sinks s.turn c .waitHdr cur { s with draws := s.draws + 1 }
    refine ⟨outOf_of_received hsinks, fun j hj => ?_, wlogOf_of_received hsinks, by simp, by simp, ?_, ?_,
      _, issueCall_trace ..⟩
    · rw [hsinks, received_getElem?_of_ne hj]
    · rw [issueCall_insts]
      exact hothers _
    · rw [issueCall_insts]
      exact ⟨_, getElem?_set_of_some hc.1 _, rfl, rfl⟩

/-! ## A sink's answer -/

/-- R26, R38: OUT and WLOG after an answer, whatever the reply. -/
theorem settled_eq_delivered (q : Sink) (n : Nat) (call : Call) (r : Reply) :
    settled q n call r =
      { out := q.out ++ r.delivered call.bytes, wlog := q.wlog.set n { call with answer := some r.seen } } := by
  cases r <;> rfl

/-- R38: an answer changes OUT as the sink settles the call, whether or not a CORE goes on: a payload call that follows
is only received. -/
theorem Moved.outOf_answer {s t : State} {j n : Nat} {r : Reply} {q : Sink} {call : Call}
    (h : Moved s (.answer j n r) t) (hq : s.sinks[j]? = some q) (hn : q.wlog[n]? = some call) (i : Nat) :
    t.outOf i = (s.setSink j (settled q n call r)).outOf i := by
  have hsame : ∀ {q' call'}, OpenCall s j n q' call' → q' = q ∧ call' = call := fun {q' call'} hopen => by
    cases hopen.sinkAt.symm.trans hq
    exact ⟨rfl, Option.some.inj (hopen.callAt.symm.trans hn)⟩
  cases h with
  | unheard hopen =>
    obtain ⟨rfl, rfl⟩ := hsame hopen
    rfl
  | answered hopen =>
    obtain ⟨rfl, rfl⟩ := hsame hopen
    rfl
  | payloadIssued hopen =>
    obtain ⟨rfl, rfl⟩ := hsame hopen
    exact outOf_of_received (issueCall_sinks ..) i

/-- OUT of the sinks after one of them is replaced. -/
theorem outOf_setSink_self {s : State} {j : Nat} {q : Sink} (hq : s.sinks[j]? = some q) (q' : Sink) :
    (s.setSink j q').outOf j = q'.out := by
  simp [State.outOf, getElem?_set_of_some hq]

theorem outOf_setSink_ne {i j : Nat} (hij : i ≠ j) (s : State) (q : Sink) : (s.setSink j q).outOf i = s.outOf i := by
  simp [State.outOf, List.getElem?_set_ne (Ne.symm hij)]

/-- Settles O32: OUT of each sink after an answer, read at the sink that answers and at the others. -/
theorem okAppendsTheWholeCall : Obligations.OkAppendsTheWholeCall := by
  intro s t rest j n r q call hagenda hq hn ht
  rw [step_cons hagenda] at ht
  have hout : ∀ i, t.outOf i = (s.setSink j (settled q n call r)).outOf i := (moved_of_stepMove ht).outOf_answer hq hn
  have hown : t.outOf j = q.out ++ r.delivered call.bytes := by
    rw [hout, outOf_setSink_self hq, settled_eq_delivered]
  refine ⟨?_, ?_, fun i hi => (hout i).trans (outOf_setSink_ne hi ..)⟩
  · rintro rfl
    exact hown
  · rintro e kept rfl
    exact hown

end Sys2Proof.Machine
end

section
/-! PROOFS. Whole runs of WRITE_FRAME (R38, R41, R44, R87 to R91). While a frame is written, one CORE and the sink that
serves it change, and the run shows events: `State.ranTo` is the system after that, and each move of the run is a
lemma from one such state to the next. -/
namespace Sys2Proof.Machine

/-! ## The sink's side of an answer -/

/-- R26: the sink's side of an answer to a call that has none. -/
theorem sinkAnswer_of_openCall {s : State} {j n : Nat} {q : Sink} {call : Call} (h : OpenCall s j n q call) (r : Reply) :
    sinkAnswer j n r s = .next (deliverAnswer call.writer j n r.seen (s.setSink j (settled q n call r))) := by
  simp [sinkAnswer, h.sinkAt, h.callAt, h.unanswered, settle_eq]

/-- R86, R88, R89: the answer to the call that CORE `k` waits for reaches it. -/
theorem sinkAnswer_of_waitingAt {s : State} {k j : Nat} {c : Inst} {cur : Cur} {q : Sink}
    (hwait : WaitingAt s k j c cur q) (hbusy : c.phase ≠ .idle) (r : Reply) :
    sinkAnswer j cur.call r s = .next (coreAnswer k c r.seen (s.setSink j
      (settled q cur.call { writer := .core k, bytes := outstandingBytes c cur, answer := none } r))) := by
  obtain ⟨hc, hcur, hserved, hq, hcall⟩ := hwait
  have hwaits : waitsFor c j cur.call = true := waitsFor_iff.mpr ⟨hserved, hbusy, cur, hcur, rfl⟩
  rw [sinkAnswer_of_openCall ⟨hq, hcall, rfl⟩]
  simp [deliverAnswer, hc, hwaits]

/-! ## Responses -/

theorem padHeader_nil : padHeader [] = zeroHdr := by decide

/-- R66: the response of an error, as statements write it. -/
theorem errorResponse_eq (e : SinkError) : errorResponse (.sinkFailure e) = answeredResponse (.err e) := by
  simp [errorResponse, answeredResponse, padHeader_nil]

theorem errorResponse_invalidLength : errorResponse .invalidLength = invalidLengthResponse := by
  simp [errorResponse, invalidLengthResponse, padHeader_nil]

/-- R86, R89: the last answer of a writing command ends it with the response that the answer calls for. -/
theorem finishWrite_eq_finish (k : Nat) (c : Inst) (a : Answer) (s : State) :
    finishWrite k c a s = finish k c (answeredResponse a) s := by
  cases a with
  | ok => simp [finishWrite, writtenResponse, answeredResponse, padHeader_nil]
  | err e => rw [finishWrite, raiseError_eq, errorResponse_eq]

/-! ## CORE's answer steps -/

section
variable {c : Inst} {cur : Cur} {p : List Byte} (k : Nat) (s : State)

/-- R88: after `Ok` to its header a WRITE_FRAME issues its payload. -/
theorem coreAnswer_header_ok (hphase : c.phase = .waitHdr) (hcur : c.cur = some cur) (hop : cur.op = .writeFrame)
    (hpayload : cur.payload = some p) :
    coreAnswer k c .ok s = issueCall k c .waitPay cur (s.emit (.answer k .ok)) := by
  simp [coreAnswer, hphase, hcur, hop, hpayload, answerFrameHeader, issueCall, outstandingBytes]

/-- R88: after `Err` to its header a WRITE_FRAME ends. -/
theorem coreAnswer_header_err (hphase : c.phase = .waitHdr) (hcur : c.cur = some cur) (hop : cur.op = .writeFrame)
    (hpayload : cur.payload = some p) (e : SinkError) :
    coreAnswer k c (.err e) s = finish k c (answeredResponse (.err e)) (s.emit (.answer k (.err e))) := by
  simp [coreAnswer, hphase, hcur, hop, hpayload, answerFrameHeader, raiseError_eq, errorResponse_eq]

/-- R89: the answer to its payload ends a WRITE_FRAME. -/
theorem coreAnswer_payload (hphase : c.phase = .waitPay) (hcur : c.cur = some cur) (a : Answer) :
    coreAnswer k c a s = finish k c (answeredResponse a) (s.emit (.answer k a)) := by
  simp [coreAnswer, hphase, hcur, answerFramePayload, finishWrite_eq_finish]
end

/-! ## The systems of a run -/

/-- The system `s` after moves that changed only CORE `k`, which is now `c`, and sink `j`, which is now `q`, and that
showed `events`; `moves` are still to come. -/
def State.ranTo (s : State) (k j : Nat) (moves : List Move) (draws : Nat) (c : Inst) (q : Sink) (events : List Event) :
    State where
  insts := s.insts.set k c
  sinks := s.sinks.set j q
  agenda := moves
  turn := k
  trace := s.trace ++ events
  draws := draws

section
variable {s : State} {k j : Nat} {c₀ : Inst} {q₀ : Sink} (hk : s.insts[k]? = some c₀) (hj : s.sinks[j]? = some q₀)
  (moves : List Move) (n : Nat) (c : Inst) (q : Sink) (events : List Event)

@[simp] theorem ranTo_turn : (s.ranTo k j moves n c q events).turn = k := rfl
@[simp] theorem ranTo_draws : (s.ranTo k j moves n c q events).draws = n := rfl

theorem ranTo_setInst (c' : Inst) :
    (s.ranTo k j moves n c q events).setInst k c' = s.ranTo k j moves n c' q events := by
  simp [State.ranTo, State.setInst]

theorem ranTo_setSink (q' : Sink) :
    (s.ranTo k j moves n c q events).setSink j q' = s.ranTo k j moves n c q' events := by
  simp [State.ranTo, State.setSink]

theorem ranTo_emit (e : Event) :
    (s.ranTo k j moves n c q events).emit e = s.ranTo k j moves n c q (events ++ [e]) := by
  simp [State.ranTo, State.emit]

theorem ranTo_finish (c' : Inst) (r : Response) :
    finish k c' r (s.ranTo k j moves n c q events) =
      s.ranTo k j moves n c'.toIdle q (events ++ [.respond k r]) := by
  rw [finish, ranTo_setInst, ranTo_emit]

/-- A step takes the first of the moves to come. -/
theorem step_ranTo (m : Move) :
    step (s.ranTo k j (m :: moves) n c q events) = stepMove m (s.ranTo k j moves n c q events) := rfl

include hk in
theorem ranTo_insts : (s.ranTo k j moves n c q events).insts[k]? = some c := getElem?_set_of_some hk c

include hj

theorem ranTo_sinks : (s.ranTo k j moves n c q events).sinks[j]? = some q := getElem?_set_of_some hj q

theorem ranTo_outOf : (s.ranTo k j moves n c q events).outOf j = q.out := by
  simp [State.outOf, ranTo_sinks hj]

theorem ranTo_taken (req : Request) (port : List Request) :
    taken k c req port n { s with agenda := moves } =
      s.ranTo k j moves n { c with port := port } q₀ [.accept k req.cmd req.payload] := by
  simp [State.ranTo, taken, takeRequest, State.setInst, State.emit, set_of_getElem? hj]

theorem ranTo_receive (call : Call) :
    receive j call (s.ranTo k j moves n c q events) =
      s.ranTo k j moves n c { q with wlog := q.wlog ++ [call] } events := by
  simp [receive, ranTo_sinks hj, ranTo_setSink]

/-- R35: the place of the call is the end of the sink's WLOG. -/
theorem ranTo_issueCall {c' : Inst} (hserved : c'.sink = some j) (p : Phase) (cur : Cur) :
    issueCall k c' p cur (s.ranTo k j moves n c q events) =
      s.ranTo k j moves n { c' with phase := p, cur := some { cur with call := q.wlog.length } }
        { q with wlog := q.wlog ++
            [{ writer := .core k, bytes := outstandingBytes { c' with phase := p } cur, answer := none }] }
        (events ++ [.issue k (outstandingBytes { c' with phase := p } cur)]) := by
  have hplace := nextCall_eq hserved (ranTo_sinks hj moves n c q events (k := k))
  simp only [issueCall, sinkWrite, hserved, hplace, ranTo_setInst, ranTo_emit, ranTo_receive hj]
  rfl

/-- R44: another writer's call is received by the sink, and no CORE takes notice. -/
theorem step_ranTo_otherWrite (bytes : List Byte) :
    step (s.ranTo k j (.otherWrite j bytes :: moves) n c q events) = .next (s.ranTo k j moves n c
      { q with wlog := q.wlog ++ [{ writer := .other, bytes := bytes, answer := none }] } events) := by
  rw [step_ranTo, ← ranTo_receive hj]
  simp [stepMove, otherWrite, ranTo_sinks hj]

/-- R44: so it is with the answer to such a call. -/
theorem step_ranTo_answer_other {m : Nat} {bytes : List Byte}
    (hcall : q.wlog[m]? = some { writer := .other, bytes := bytes, answer := none }) (r : Reply) :
    step (s.ranTo k j (.answer j m r :: moves) n c q events) =
      .next (s.ranTo k j moves n c (settled q m { writer := .other, bytes := bytes, answer := none } r) events) := by
  rw [step_ranTo, stepMove, sinkAnswer_of_openCall ⟨ranTo_sinks hj .., hcall, rfl⟩, ranTo_setSink]
  rfl

end

/-! ## The moves of a frame -/

/-- A write call of CORE `k` (R26). -/
abbrev coreCall (k : Nat) (bytes : List Byte) (answer : Option Answer) : Call :=
  { writer := .core k, bytes := bytes, answer := answer }

/-- The header of the descriptor that a command word carries (R50, R59). -/
abbrev wordHeader (w : CmdWord) : List Byte := wireHeader (descOf (cmdHeader w))

/-- `cur` is a WRITE_FRAME with the header `hdr` in HBUF and `p` in PAYLOAD, and it waits for the answer to the call at
place `m`. -/
structure FrameCur (cur : Cur) (hdr p : List Byte) (m : Nat) : Prop where
  op      : cur.op = .writeFrame
  header  : headerBytes cur.hbuf cur.hlen = hdr
  payload : cur.payload = some p
  call    : cur.call = m

/-- `c` waiting in `phase` with the current command `cur`. -/
def Inst.waiting (c : Inst) (phase : Phase) (cur : Cur) : Inst := { c with phase := phase, cur := some cur }

section
variable {cur : Cur} {hdr p : List Byte} {m : Nat} (h : FrameCur cur hdr p m) (c : Inst)
include h

theorem FrameCur.withCall (m' : Nat) : FrameCur { cur with call := m' } hdr p m' := ⟨h.op, h.header, h.payload, rfl⟩

theorem FrameCur.headerCall : outstandingBytes (c.waiting .waitHdr cur) cur = hdr := h.header

theorem FrameCur.payloadCall : outstandingBytes (c.waiting .waitPay cur) cur = p := by
  simp [outstandingBytes, Inst.waiting, h.payload]

end

section
variable {s : State} {k j : Nat} {c₀ : Inst} {q₀ : Sink} (hk : s.insts[k]? = some c₀) (hj : s.sinks[j]? = some q₀)
  {moves : List Move} {n m : Nat} {c : Inst} {q : Sink} {events : List Event} {cur : Cur} {hdr p : List Byte}
  (hserved : c.sink = some j) (hframe : FrameCur cur hdr p m)

include hk hj hserved hframe

/-- R86, R88, R89: the answer to the outstanding call reaches CORE `k`. -/
theorem step_ranTo_answer_awaited {phase : Phase} (hbusy : phase ≠ .idle) {bytes : List Byte}
    (hbytes : outstandingBytes (c.waiting phase cur) cur = bytes)
    (hcall : q.wlog[m]? = some (coreCall k bytes none)) (r : Reply) :
    step (s.ranTo k j (.answer j m r :: moves) n (c.waiting phase cur) q events) =
      .next (coreAnswer k (c.waiting phase cur) r.seen (s.ranTo k j moves n (c.waiting phase cur)
        (settled q m (coreCall k bytes none) r) events)) := by
  obtain ⟨-, -, -, rfl⟩ := hframe
  subst hbytes
  rw [step_ranTo, stepMove, sinkAnswer_of_waitingAt (c := c.waiting phase cur)
    ⟨ranTo_insts hk .., rfl, hserved, ranTo_sinks hj .., hcall⟩ hbusy r, ranTo_setSink]

/-- R88: after `Ok` to the header the payload is issued. -/
theorem step_ranTo_header_ok (hcall : q.wlog[m]? = some (coreCall k hdr none)) :
    ∃ cur', FrameCur cur' hdr p q.wlog.length ∧
      step (s.ranTo k j (.answer j m .ok :: moves) n (c.waiting .waitHdr cur) q events) =
        .next (s.ranTo k j moves n (c.waiting .waitPay cur')
          { out := q.out ++ hdr
            wlog := q.wlog.set m (coreCall k hdr (some .ok)) ++ [coreCall k p none] }
          (events ++ [.answer k .ok, .issue k p])) := by
  refine ⟨_, hframe.withCall q.wlog.length, ?_⟩
  rw [step_ranTo_answer_awaited hk hj hserved hframe (by decide) (hframe.headerCall c) hcall, Reply.seen,
    coreAnswer_header_ok k _ rfl rfl hframe.op hframe.payload, ranTo_emit,
    ranTo_issueCall (c' := c.waiting .waitHdr cur) hj _ _ _ _ _ hserved]
  simp [settled, Inst.waiting, outstandingBytes, hframe.payload]

/-- R88: after `Err` to the header the frame ends. -/
theorem step_ranTo_header_err (hcall : q.wlog[m]? = some (coreCall k hdr none)) (e : SinkError) (kept : Nat) :
    step (s.ranTo k j (.answer j m (.err e kept) :: moves) n (c.waiting .waitHdr cur) q events) =
      .next (s.ranTo k j moves n c.toIdle (settled q m (coreCall k hdr none) (.err e kept))
        (events ++ [.answer k (.err e), .respond k (answeredResponse (.err e))])) := by
  rw [step_ranTo_answer_awaited hk hj hserved hframe (by decide) (hframe.headerCall c) hcall,
    Reply.seen, coreAnswer_header_err k _ rfl rfl hframe.op hframe.payload, ranTo_emit, ranTo_finish,
    List.append_assoc]
  rfl

/-- R89: the answer to the payload ends the frame. -/
theorem step_ranTo_payload (hcall : q.wlog[m]? = some (coreCall k p none)) (r : Reply) :
    step (s.ranTo k j (.answer j m r :: moves) n (c.waiting .waitPay cur) q events) =
      .next (s.ranTo k j moves n c.toIdle (settled q m (coreCall k p none) r)
        (events ++ [.answer k r.seen, .respond k (answeredResponse r.seen)])) := by
  rw [step_ranTo_answer_awaited hk hj hserved hframe (by decide) (hframe.payloadCall c) hcall,
    coreAnswer_payload k _ rfl rfl, ranTo_emit, ranTo_finish, List.append_assoc]
  rfl
end

/-! ## The acceptance of a frame -/

/-- R61: a word with OP = 3 is a WRITE_FRAME. -/
theorem decode_writeFrame {w : CmdWord} (hop : w.extractLsb' 126 2 = 3#2) (p : List Byte) :
    decode w p = .writeFrame (cmdHeader w) p := by
  simp [decode, cmdOp, hop, opOfCode]

/-- R59: RSV of a command word is in range. -/
theorem cmdHeader_rsv_le (w : CmdWord) : (cmdHeader w).rsv ≤ 7 :=
  Nat.le_of_lt_succ (BitVec.isLt _)

/-- R87: with a length that is not negative WRITE_FRAME issues its header. -/
theorem startWrite_frame {d : Desc} (h : 0 ≤ d.len.toInt) (p : List Byte) (c : Inst) (s : State) :
    ∃ cur, FrameCur cur (wireHeader d) p 0 ∧
      startWrite .writeFrame d (some p) c s = issueCall s.turn c .waitHdr cur { s with draws := s.draws + 1 } := by
  have henc := encodeHeader_eq d (staleBuf s.draws) h
  exact ⟨_, ⟨rfl, (headerBytes_of_encodeHeader henc).2, rfl, rfl⟩, startWrite_of_some henc ..⟩

section
variable {s : State} {rest : List Move} {k j : Nat} {c : Inst} {q : Sink} {w : CmdWord} {p : List Byte}
  {more : List Request} (hc : IdleAt s k c) (hport : c.port = { cmd := w, payload := p } :: more)
  (hq : s.sinks[j]? = some q) (hop : w.extractLsb' 126 2 = 3#2)

include hc hport hq hop

/-- R87, R118: an IDLE `Inst` with a WRITE_FRAME at its port takes it. -/
theorem step_accept_writeFrame (hagenda : s.agenda = .accept k :: rest) :
    step s = .next (startWrite .writeFrame (descOf (cmdHeader w)) (some p) { c with port := more }
      (s.ranTo k j rest s.draws { c with port := more } q [.accept k w p])) := by
  have hidle : IdleAt { s with agenda := rest } k c := hc
  have htaken := ranTo_taken (k := k) hq rest s.draws c { cmd := w, payload := p } more
  rw [step_cons hagenda, stepMove, stepAccept_of_idleAt hidle hport, decode_writeFrame hop, ← htaken]
  exact accepting_idle (taken_idleAt hidle _ more s.draws) (cmdHeader_rsv_le w)

/-- R87: with a length that is not negative the header is issued. -/
theorem step_writeFrame_issues (hserved : c.sink = some j) (hlen : 0 ≤ (w.extractLsb' 0 64).toInt)
    (hagenda : s.agenda = .accept k :: rest) :
    ∃ cur, FrameCur cur (wordHeader w) p q.wlog.length ∧
      step s = .next (s.ranTo k j rest (s.draws + 1) (Inst.waiting { c with port := more } .waitHdr cur)
        { q with wlog := q.wlog ++ [coreCall k (wordHeader w) none] }
        [.accept k w p, .issue k (wordHeader w)]) := by
  have hserved' : Inst.sink { c with port := more } = some j := hserved
  obtain ⟨cur, (hframe : FrameCur cur (wordHeader w) p 0), hstart⟩ :=
    startWrite_frame (d := descOf (cmdHeader w)) hlen p { c with port := more }
      (s.ranTo k j rest s.draws { c with port := more } q [.accept k w p])
  refine ⟨_, hframe.withCall q.wlog.length, ?_⟩
  rw [step_accept_writeFrame hc hport hq hop hagenda, hstart, ← hframe.headerCall { c with port := more }]
  exact congrArg _ (ranTo_issueCall hq rest (s.draws + 1) _ q _ hserved' .waitHdr cur)

/-- R94: with a negative length the frame ends at once. -/
theorem step_writeFrame_negative (hlen : (w.extractLsb' 0 64).toInt < 0) (hagenda : s.agenda = .accept k :: rest) :
    step s = .next (s.ranTo k j rest s.draws (Inst.toIdle { c with port := more }) q
      [.accept k w p, .respond k invalidLengthResponse]) := by
  have hnone : ∀ buf, encodeHeader (descOf (cmdHeader w)) buf = none := fun buf => encodeHeader_negative buf hlen
  rw [step_accept_writeFrame hc hport hq hop hagenda, startWrite_of_none (hnone _), errorResponse_invalidLength,
    ranTo_turn, ranTo_finish]
  rfl
end

/-! ## Whole frames -/

section
variable {s : State} {rest : List Move} {k j : Nat} {c : Inst} {q : Sink} {w : CmdWord} {p : List Byte}
  {more : List Request} (hc : IdleAt s k c) (hport : c.port = { cmd := w, payload := p } :: more)
  (hserved : c.sink = some j) (hq : s.sinks[j]? = some q) (hop : w.extractLsb' 126 2 = 3#2)
  (hlen : 0 ≤ (w.extractLsb' 0 64).toInt)

include hc hport hserved hq hop hlen

/-- R87, R88: a run in which the sink takes the header: the payload is issued. -/
theorem steps_writeFrame_header_ok (hagenda : s.agenda = .accept k :: .answer j q.wlog.length .ok :: rest) :
    ∃ cur, FrameCur cur (wordHeader w) p (q.wlog.length + 1) ∧
      ∀ m, steps (m + 2) s = steps m (s.ranTo k j rest (s.draws + 1) (Inst.waiting { c with port := more } .waitPay cur)
        { out := q.out ++ wordHeader w
          wlog := q.wlog ++ [coreCall k (wordHeader w) (some .ok), coreCall k p none] }
        [.accept k w p, .issue k (wordHeader w), .answer k .ok, .issue k p]) := by
  obtain ⟨cur, hframe, hfirst⟩ := step_writeFrame_issues hc hport hq hop hserved hlen hagenda
  obtain ⟨cur', hframe', hsecond⟩ := step_ranTo_header_ok hc.1 hq (c := { c with port := more }) hserved hframe
    (q := { q with wlog := q.wlog ++ [coreCall k (wordHeader w) none] }) List.getElem?_concat_length
    (moves := rest) (n := s.draws + 1) (events := [.accept k w p, .issue k (wordHeader w)])
  refine ⟨cur', by simpa using hframe', fun m => ?_⟩
  rw [steps_succ hfirst, steps_succ hsecond]
  simp

/-- R41, R89: a run in which the sink takes the header and answers the payload. -/
theorem steps_writeFrame_payload (r : Reply)
    (hagenda : s.agenda = .accept k :: .answer j q.wlog.length .ok :: .answer j (q.wlog.length + 1) r :: rest) :
    steps 3 s = .next (s.ranTo k j rest (s.draws + 1) (Inst.toIdle { c with port := more })
      { out := q.out ++ wordHeader w ++ r.delivered p
        wlog := q.wlog ++ [coreCall k (wordHeader w) (some .ok), coreCall k p (some r.seen)] }
      [.accept k w p, .issue k (wordHeader w), .answer k .ok, .issue k p, .answer k r.seen,
       .respond k (answeredResponse r.seen)]) := by
  obtain ⟨cur, hframe, hrun⟩ := steps_writeFrame_header_ok hc hport hserved hq hop hlen hagenda
  rw [hrun 1, steps_succ (step_ranTo_payload hc.1 hq (c := { c with port := more }) hserved hframe (by simp) r),
    steps_zero, settled_eq_delivered]
  simp

/-- R41, R88: a run in which the sink fails the header. -/
theorem steps_writeFrame_header_err (e : SinkError) (kept : Nat)
    (hagenda : s.agenda = .accept k :: .answer j q.wlog.length (.err e kept) :: rest) :
    steps 2 s = .next (s.ranTo k j rest (s.draws + 1) (Inst.toIdle { c with port := more })
      { out := q.out ++ (wordHeader w).take kept
        wlog := q.wlog ++ [coreCall k (wordHeader w) (some (.err e))] }
      [.accept k w p, .issue k (wordHeader w), .answer k (.err e), .respond k (answeredResponse (.err e))]) := by
  obtain ⟨cur, hframe, hfirst⟩ := step_writeFrame_issues hc hport hq hop hserved hlen hagenda
  rw [steps_succ hfirst, steps_succ (step_ranTo_header_err hc.1 hq (c := { c with port := more }) hserved hframe
    List.getElem?_concat_length e kept), steps_zero]
  simp [settled]

/-- R44, R117: a run in which another writer's call lands between the header and the payload of a frame. -/
theorem steps_writeFrame_split (other : List Byte)
    (hagenda : s.agenda = .accept k :: .answer j q.wlog.length .ok :: .otherWrite j other ::
      .answer j (q.wlog.length + 2) .ok :: .answer j (q.wlog.length + 1) .ok :: rest) :
    steps 5 s = .next (s.ranTo k j rest (s.draws + 1) (Inst.toIdle { c with port := more })
      { out := q.out ++ wordHeader w ++ other ++ p
        wlog := q.wlog ++ [coreCall k (wordHeader w) (some .ok), coreCall k p (some .ok),
          { writer := .other, bytes := other, answer := some .ok }] }
      [.accept k w p, .issue k (wordHeader w), .answer k .ok, .issue k p, .answer k .ok,
       .respond k (answeredResponse .ok)]) := by
  obtain ⟨cur, hframe, hrun⟩ := steps_writeFrame_header_ok hc hport hserved hq hop hlen hagenda
  rw [hrun 3, steps_succ (step_ranTo_otherWrite hq ..),
    steps_succ (step_ranTo_answer_other hq _ _ _ _ _ (bytes := other) (by simp) .ok),
    steps_succ (step_ranTo_payload hc.1 hq (c := { c with port := more }) hserved hframe (by simp [settled]) .ok),
    steps_zero]
  simp [settled, Reply.seen]
end

/-- Settles O39: the four runs, each written out. -/
theorem writeFrameMakesTwoOneOrNoCalls : Obligations.WriteFrameMakesTwoOneOrNoCalls := by
  intro s rest k j c q w p more hc hport hserved hq hop
  refine ⟨fun hlen hagenda => ?_, fun hlen e kept hagenda => ?_, fun hlen e kept hagenda => ?_, fun hlen hagenda => ?_⟩
  · exact ⟨_, steps_writeFrame_payload hc hport hserved hq hop hlen .ok hagenda⟩
  · exact ⟨_, steps_writeFrame_payload hc hport hserved hq hop hlen (.err e kept) hagenda⟩
  · exact ⟨_, steps_writeFrame_header_err hc hport hserved hq hop hlen e kept hagenda⟩
  · rw [steps_succ (step_writeFrame_negative hc hport hq hop hlen hagenda), steps_zero]
    simp [State.ranTo, set_of_getElem? hq, Inst.toIdle]

/-- Settles O40: the split run, read at OUT and at the last event. -/
theorem anotherWriterCanSplitAFrame : Obligations.AnotherWriterCanSplitAFrame := by
  intro s rest k j c q w p other more hc hport hserved hq hop hlen hagenda
  refine ⟨_, steps_writeFrame_split hc hport hserved hq hop hlen other hagenda, ranTo_outOf hq .., ?_⟩
  simp [State.ranTo]

end Sys2Proof.Machine
end

section
/-! PROOFS. The command word (R59 to R63): decoding and encoding taken apart into the operation, the header and the
payload, and the word into its slices. -/
namespace Sys2Proof

/-! ## The parts of a command -/

/-- The command of an operation, a header and what the payload port holds. -/
def Instr.ofParts (op : Op) (h : Header) (p : List Byte) : Instr :=
  match op with
  | .size => .size h
  | .encode => .encode h
  | .writeHeader => .writeHeader h
  | .writeFrame => .writeFrame h p

section
variable (op : Op) (h : Header) (p : List Byte)

@[simp] theorem op_ofParts : (Instr.ofParts op h p).op = op := by cases op <;> rfl
@[simp] theorem header_ofParts : (Instr.ofParts op h p).header = h := by cases op <;> rfl

theorem ofParts_parts (i : Instr) : Instr.ofParts i.op i.header i.payload = i := by cases i <;> rfl

theorem payload_ofParts : (Instr.ofParts op h p).payload = if op = .writeFrame then p else [] := by cases op <;> rfl

/-- R63: an operation other than WRITE_FRAME ignores the payload port. -/
theorem ofParts_payload {op : Op} (hop : op ≠ .writeFrame) (p' : List Byte) :
    Instr.ofParts op h p = Instr.ofParts op h p' := by
  cases op with
  | writeFrame => exact absurd rfl hop
  | size => rfl
  | encode => rfl
  | writeHeader => rfl
end

/-! ## Decoding -/

section
variable (w : CmdWord) (p : List Byte)

theorem decode_eq_ofParts : decode w p = Instr.ofParts (opOfCode (cmdOp w)) (cmdHeader w) p := by
  unfold decode
  cases opOfCode (cmdOp w) <;> rfl

@[simp] theorem decode_op : (decode w p).op = opOfCode (cmdOp w) := by rw [decode_eq_ofParts, op_ofParts]
@[simp] theorem decode_header : (decode w p).header = cmdHeader w := by rw [decode_eq_ofParts, header_ofParts]
end

@[simp] theorem opOfCode_opCode (op : Op) : opOfCode (opCode op) = op := by cases op <;> rfl

@[simp] theorem opCode_opOfCode (c : BitVec 2) : opCode (opOfCode c) = c := by
  revert c
  decide

/-- R61: of the four values only 3 selects WRITE_FRAME. -/
theorem opOfCode_eq_writeFrame (c : BitVec 2) : opOfCode c = .writeFrame ↔ c = 3#2 := by
  revert c
  decide

/-- R59, R119: the fields of a command word are in range. -/
theorem cmdHeader_wellFormed (w : CmdWord) : (cmdHeader w).wellFormed = true := by
  have hrsv : (cmdHeader w).rsv ≤ 7 := Machine.cmdHeader_rsv_le w
  have hopc : (cmdHeader w).opc ≤ 15 := Nat.le_of_lt_succ (BitVec.isLt _)
  simp [Header.wellFormed, Header.rsvInRange, Header.opcInRange, hrsv, hopc]

theorem decode_wellFormed (w : CmdWord) (p : List Byte) : (decode w p).wellFormed = true := by
  rw [Instr.wellFormed, decode_header, cmdHeader_wellFormed]

/-! ## The slices of a word -/

/-- R59: a command word is its twelve slices, the two RES0 slices among them. -/
theorem slices_append (w : CmdWord) :
    w.extractLsb' 126 2 ++ w.extractLsb' 120 6 ++ w.extractLsb' 119 1 ++ w.extractLsb' 116 3 ++ w.extractLsb' 112 4
      ++ w.extractLsb' 111 1 ++ w.extractLsb' 96 15
      ++ w.extractLsb' 88 8 ++ w.extractLsb' 80 8 ++ w.extractLsb' 72 8 ++ w.extractLsb' 64 8
      ++ w.extractLsb' 0 64 = w := by
  iterate 11 rw [BitVec.extractLsb'_append_extractLsb'_eq_extractLsb' (x := w) (by decide)]
  exact BitVec.extractLsb'_eq_self

/-- Slices of the same widths side by side are the same exactly if each is. -/
theorem append_inj_iff {m n : Nat} {a b : BitVec m} {c d : BitVec n} : a ++ c = b ++ d ↔ a = b ∧ c = d := by
  refine ⟨fun h => ⟨?_, ?_⟩, fun ⟨ha, hc⟩ => by rw [ha, hc]⟩
  · rw [← BitVec.extractLsb'_append_eq_left (a := a) (b := c), h, BitVec.extractLsb'_append_eq_left]
  · rw [← BitVec.extractLsb'_append_eq_right (a := a) (b := c), h, BitVec.extractLsb'_append_eq_right]

theorem ofBool_getLsbD (w : CmdWord) (n : Nat) : BitVec.ofBool (w.getLsbD n) = w.extractLsb' n 1 := by
  rw [BitVec.getLsbD_eq_extractLsb']
  generalize w.extractLsb' n 1 = b
  revert b
  decide

/-! ## Decoding an encoded command -/

/-- R59: each slice of an encoded command is the field that the layout puts there. -/
theorem encode_slices (i : Instr) :
    let w := encode i
    BitVec.ofBool (w.getLsbD 119) = BitVec.ofBool i.header.fin ∧ w.extractLsb' 116 3 = BitVec.ofNat 3 i.header.rsv ∧
    w.extractLsb' 112 4 = BitVec.ofNat 4 i.header.opc ∧
    BitVec.ofBool (w.getLsbD 111) = BitVec.ofBool i.header.masked ∧ cmdKey w = i.header.key ∧
    w.extractLsb' 0 64 = i.header.len := by
  have hslices := slices_append (encode i)
  conv_rhs at hslices => rw [encode]
  simp only [append_inj_iff, and_assoc] at hslices
  obtain ⟨-, -, hfin, hrsv, hopc, hmasked, -, hk0, hk1, hk2, hk3, hlen⟩ := hslices
  simp only [ofBool_getLsbD, cmdKey, hk0, hk1, hk2, hk3]
  exact ⟨hfin, hrsv, hopc, hmasked, trivial, hlen⟩

/-- R59, R60: the header of a well-formed command is read back, field by field. -/
theorem cmdHeader_encode {i : Instr} (hwf : i.wellFormed = true) : cmdHeader (encode i) = i.header := by
  obtain ⟨hfin, hrsv, hopc, hmasked, hkey, hlen⟩ := encode_slices i
  simp only [Instr.wellFormed, Header.wellFormed, Header.rsvInRange, Header.opcInRange, Bool.and_eq_true,
    decide_eq_true_eq] at hwf
  have hrsv8 : i.header.rsv % 2 ^ 3 = i.header.rsv := Nat.mod_eq_of_lt (by omega)
  have hopc16 : i.header.opc % 2 ^ 4 = i.header.opc := Nat.mod_eq_of_lt (by omega)
  simp only [cmdHeader, BitVec.ofBool_eq_iff_eq.mp hfin, hrsv, hopc, BitVec.ofBool_eq_iff_eq.mp hmasked, hkey, hlen,
    BitVec.toNat_ofNat, hrsv8, hopc16]

/-- R59, R63: a command comes back from its word, if the payload port carries the payload where OP = 3. -/
theorem decode_encode {i : Instr} {p : List Byte} (hwf : i.wellFormed = true)
    (hp : i.op = .writeFrame → p = i.payload) : decode (encode i) p = i := by
  have hparts : decode (encode i) p = Instr.ofParts i.op i.header p := by
    rw [decode_eq_ofParts, cmdOp_encode, opOfCode_opCode, cmdHeader_encode hwf]
  rw [hparts]
  by_cases hop : i.op = .writeFrame
  · rw [hp hop, ofParts_parts]
  · rw [ofParts_payload _ _ hop i.payload, ofParts_parts]

/-- Settles O1: the operation and the header are read back from the word, and the payload port carries the payload. -/
theorem decodeOfEncodeIsTheCommand : Obligations.DecodeOfEncodeIsTheCommand :=
  fun _ hwf => decode_encode hwf fun _ => rfl

/-! ## Encoding a decoded word -/

/-- R62: the bits that are not RES0, slice by slice. -/
theorem usedBits_eq_slices : Machine.usedBits =
    BitVec.allOnes 2 ++ 0#6 ++ BitVec.allOnes 1 ++ BitVec.allOnes 3 ++ BitVec.allOnes 4
      ++ BitVec.allOnes 1 ++ 0#15
      ++ BitVec.allOnes 8 ++ BitVec.allOnes 8 ++ BitVec.allOnes 8 ++ BitVec.allOnes 8
      ++ BitVec.allOnes 64 := by decide

/-- R59, R62: the encoder puts every slice back but the RES0 ones, which it clears. -/
theorem encode_decode (w : CmdWord) (p : List Byte) : encode (decode w p) = w &&& Machine.usedBits := by
  conv_rhs =>
    rw [← slices_append w, usedBits_eq_slices]
    repeat rw [BitVec.and_append]
  simp only [BitVec.and_allOnes, BitVec.and_zero]
  rw [encode, decode_op, decode_header, opCode_opOfCode]
  simp only [cmdOp, cmdHeader, cmdKey, ofBool_getLsbD, BitVec.ofNat_toNat, BitVec.setWidth_eq]

/-- Settles O2: the word is encoded back but for RES0, and its header is in range by the widths of its fields. -/
theorem encodeOfDecodeClearsRes0 : Obligations.EncodeOfDecodeClearsRes0 :=
  fun w p => ⟨encode_decode w p, decode_wellFormed w p⟩

/-- R62: a word without its RES0 bits carries the same command. -/
theorem decode_and_usedBits (w : CmdWord) (p : List Byte) : decode (w &&& Machine.usedBits) p = decode w p := by
  rw [← encode_decode w p]
  refine decode_encode (decode_wellFormed w p) fun hop => ?_
  rw [decode_op] at hop
  rw [decode_eq_ofParts, payload_ofParts, if_pos hop]

/-- Settles O3: both words carry the command of the word without RES0 bits. -/
theorem res0BitsAreIgnored : Obligations.Res0BitsAreIgnored := by
  intro w w' p hused
  rw [← decode_and_usedBits w p, hused, decode_and_usedBits w' p]

/-! ## The selector and the payload port -/

/-- Settles O4: the operation is read off the OP field by the table. -/
theorem opFieldSelectsTheOperation : Obligations.OpFieldSelectsTheOperation := by
  intro w p
  have hop : (decode w p).op = opOfCode (w.extractLsb' 126 2) := decode_op w p
  refine ⟨fun h => ?_, fun h => ?_, fun h => ?_, fun h => ?_⟩ <;> rw [hop, h] <;> rfl

/-- Settles O5: only WRITE_FRAME, which only OP = 3 selects, takes the payload port. -/
theorem payloadPortIsTakenOnlyByWriteFrame : Obligations.PayloadPortIsTakenOnlyByWriteFrame := by
  intro w p p'
  have hframe : opOfCode (cmdOp w) = .writeFrame ↔ w.extractLsb' 126 2 = 3#2 := opOfCode_eq_writeFrame _
  refine ⟨fun h3 => ?_, fun h3 => ?_⟩
  · rw [decode_eq_ofParts, payload_ofParts, if_pos (hframe.mpr h3)]
  · rw [decode_eq_ofParts, decode_eq_ofParts]
    exact ofParts_payload _ _ (fun hop => h3 (hframe.mp hop)) p'

/-- Settles O6: fixed words, decoded by computation. -/
theorem specWordsDecode : Obligations.SpecWordsDecode := by
  refine ⟨?_, ?_, ?_, ?_⟩ <;> decide

end Sys2Proof

end

section
/-! PROOFS. A header that the encoder makes (R50 to R58): its number of bytes, its cells, and its length form. -/
namespace Sys2Proof.Machine

/-! ## The length forms of the wire format -/

/-- R56: the `n` column is the number of bytes of the table's header. -/
theorem wireHeader_length (d : Desc) : (wireHeader d).length = wireSize d.masked d.len.toInt := by
  rw [wireHeader_eq, List.length_append, wireUnkeyed_length]
  unfold wireKey wireExt wireSize payloadLength
  split_ifs <;> rfl

/-- R52, R56: the length itself in LC. -/
structure ShortForm (l : Int) : Prop where
  le : l ≤ 125
  lc : ((wireLc l).toNat : Int) = l

/-- R52, R53, R56: the length in 16 bits. -/
structure Form16 (l : Int) : Prop where
  ge  : 126 ≤ l
  le  : l ≤ 65535
  lc  : (wireLc l).toNat = 126
  ext : wireExt l = [BitVec.ofInt 8 (l / 256), BitVec.ofInt 8 l]

/-- R52, R53, R56: the length in 64 bits. -/
structure Form64 (l : Int) : Prop where
  ge  : 65536 ≤ l
  lc  : (wireLc l).toNat = 127
  ext : wireExt l =
    [BitVec.ofInt 8 (l / 2 ^ 56), BitVec.ofInt 8 (l / 2 ^ 48), BitVec.ofInt 8 (l / 2 ^ 40), BitVec.ofInt 8 (l / 2 ^ 32),
     BitVec.ofInt 8 (l / 2 ^ 24), BitVec.ofInt 8 (l / 2 ^ 16), BitVec.ofInt 8 (l / 2 ^ 8), BitVec.ofInt 8 l]

/-- R58: a length that is not negative has one of the three forms, the shortest that can hold it. -/
theorem form_cases {l : Int} (h0 : 0 ≤ l) : ShortForm l ∨ Form16 l ∨ Form64 l := by
  by_cases hshort : l ≤ 125
  · refine .inl ⟨hshort, ?_⟩
    rw [wireLc, if_pos hshort, BitVec.toNat_ofInt]
    omega
  · by_cases hmid : l ≤ 65535
    · exact .inr (.inl ⟨by omega, hmid, by simp [wireLc, hshort, hmid], by simp [wireExt, hshort, hmid]⟩)
    · exact .inr (.inr ⟨by omega, by simp [wireLc, hshort, hmid], by simp [wireExt, hshort, hmid]⟩)

/-- R32: two big-endian bytes hold a length of 16 bits. -/
theorem int_eq_sum_of_two_bytes {l : Int} (h0 : 0 ≤ l) (h1 : l ≤ 65535) :
    l = (BitVec.ofInt 8 (l / 256)).toNat * 256 + (BitVec.ofInt 8 l).toNat := by
  simp only [BitVec.toNat_ofInt]
  omega

/-- The first of the eight bytes of a length below 2^63 has a leading 0. -/
theorem msb_of_first_byte {l : Int} (h0 : 0 ≤ l) (h1 : l < 2 ^ 63) :
    (BitVec.ofInt 8 (l / 2 ^ 56)).getLsbD 7 = false := by
  have hlt : (BitVec.ofInt 8 (l / 2 ^ 56)).toNat < 2 ^ 7 := by
    rw [BitVec.toNat_ofInt]
    omega
  exact Nat.testBit_lt_two_pow hlt

/-! ## The encoder's answer -/

section
variable {d : Desc} {buf b : HBuf} {hlen : Fin 15} (henc : encodeHeader d buf = some (b, hlen))
include henc

theorem hlen_of_encodeHeader : hlen.val = wireSize d.masked d.len.toInt := by
  obtain ⟨-, hbytes⟩ := headerBytes_of_encodeHeader henc
  have hlength : (headerBytes b hlen).length = hlen.val := by
    simp only [headerBytes, List.length_take, Vector.length_toList]
    omega
  rw [← hlength, hbytes, wireHeader_length]

/-- The cells of HBUF that the header fills. -/
theorem getElem_of_encodeHeader {k : Nat} {x : Byte} (hx : (wireHeader d)[k]? = some x) (hk : k < 14) : b[k] = x := by
  obtain ⟨-, hbytes⟩ := headerBytes_of_encodeHeader henc
  rw [← hbytes, headerBytes, List.getElem?_take] at hx
  split at hx
  · simpa [hk] using hx
  · cases hx

/-- R51: byte 1. -/
theorem byte1_of_encodeHeader : b[1] = BitVec.ofBool d.masked ++ wireLc d.len.toInt :=
  getElem_of_encodeHeader henc rfl (by decide)

theorem lc_of_encodeHeader : b[1].extractLsb' 0 7 = wireLc d.len.toInt := by
  rw [byte1_of_encodeHeader henc]
  exact BitVec.extractLsb'_append_eq_right

theorem mask_of_encodeHeader : b[1].getLsbD 7 = d.masked := by
  rw [byte1_of_encodeHeader henc, BitVec.getLsbD_append]
  simp

/-- R57: bytes 0 and 1 tell the header's length. -/
theorem wireHeaderSize_of_encodeHeader : wireHeaderSize b[1] = hlen.val := by
  obtain ⟨h0, -⟩ := headerBytes_of_encodeHeader henc
  rw [hlen_of_encodeHeader henc, wireHeaderSize, lc_of_encodeHeader henc, mask_of_encodeHeader henc, wireSize]
  rcases form_cases h0 with ⟨hle, hlc⟩ | ⟨hge, hle, hlc, -⟩ | ⟨hge, hlc, -⟩
  · have hshort : (wireLc d.len.toInt).toNat ≤ 125 := by omega
    rw [if_pos hshort, if_pos hle]
    cases d.masked <;> rfl
  · have hlong : ¬ d.len.toInt ≤ 125 := by omega
    rw [if_neg hlong, if_pos hle, hlc]
    cases d.masked <;> rfl
  · have hlong : ¬ d.len.toInt ≤ 125 := by omega
    have hlonger : ¬ d.len.toInt ≤ 65535 := by omega
    rw [if_neg hlong, if_neg hlonger, hlc]
    cases d.masked <;> rfl

/-- The cells of the extended length. -/
theorem ext_of_encodeHeader {k : Nat} {x : Byte} (hx : (wireExt d.len.toInt)[k]? = some x) (hk : k + 2 < 14) :
    b[k + 2] = x := by
  refine getElem_of_encodeHeader henc ?_ hk
  obtain ⟨hlt, -⟩ := List.getElem?_eq_some_iff.mp hx
  simp only [wireHeader, List.cons_append, List.nil_append, List.getElem?_cons_succ]
  rw [List.getElem?_append_left hlt, hx]

end

/-! ## The obligations -/

/-- Settles O11: the encoder's cell writes are the wire format, whose length is the table's `n`. -/
theorem encoderWritesTheWireFormat : Obligations.EncoderWritesTheWireFormat := by
  intro d buf
  refine ⟨fun hneg => encodeHeader_negative buf hneg, fun h0 => ?_⟩
  have henc := encodeHeader_eq d buf h0
  exact ⟨_, _, henc, (headerBytes_of_encodeHeader henc).2, hlen_of_encodeHeader henc⟩

/-- Settles O13: `wireHeaderSize` is the formula written out. -/
theorem readerFindsTheHeaderLength : Obligations.ReaderFindsTheHeaderLength := by
  intro d buf b hlen henc
  have hsize := wireHeaderSize_of_encodeHeader henc
  exact ⟨hsize.symm, hsize⟩

/-- Settles O14: LC tells which of the three forms the length has, and the extended cells are its bytes. -/
theorem headersUseTheShortestLengthForm : Obligations.HeadersUseTheShortestLengthForm := by
  intro d buf b hlen henc
  obtain ⟨h0, -⟩ := headerBytes_of_encodeHeader henc
  have h63 : d.len.toInt < 2 ^ 63 := BitVec.toInt_lt
  have hcell := fun k x => ext_of_encodeHeader henc (k := k) (x := x)
  rw [lc_of_encodeHeader henc]
  rcases form_cases h0 with ⟨hle, hlc⟩ | ⟨hge, hle, hlc, hext⟩ | ⟨hge, hlc, hext⟩
  · exact ⟨fun _ => hlc.symm, fun h126 => by omega, fun h127 => by omega⟩
  · rw [hext] at hcell
    rw [hlc]
    refine ⟨fun h125 => by omega, fun _ => ⟨hge, hle, ?_⟩, fun h127 => by omega⟩
    rw [hcell 0 _ rfl (by decide), hcell 1 _ rfl (by decide)]
    exact int_eq_sum_of_two_bytes h0 hle
  · rw [hext] at hcell
    rw [hlc]
    refine ⟨fun h125 => by omega, fun h126 => by omega, fun _ => ⟨hge, ?_, ?_⟩⟩
    · rw [hcell 0 _ rfl (by decide)]
      exact msb_of_first_byte h0 h63
    · rw [hcell 0 _ rfl (by decide), hcell 1 _ rfl (by decide), hcell 2 _ rfl (by decide), hcell 3 _ rfl (by decide),
        hcell 4 _ rfl (by decide), hcell 5 _ rfl (by decide), hcell 6 _ rfl (by decide), hcell 7 _ rfl (by decide)]
      exact_mod_cast int_eq_sum_of_bytes d.len.toInt h0 h63

end Sys2Proof.Machine
end

section
/-! PROOFS. The response word (R64): the bytes of RHDR, shifted in one after the other, and the slices of the word. -/
namespace Sys2Proof.Machine

/-- Bytes shifted into a word, the first one most significant. -/
def shiftIn (bs : List Byte) : BitVec 112 := bs.foldl (fun acc x => (acc <<< 8) ||| x.setWidth 112) 0#112

theorem rhdrBits_eq (b : HBuf) : rhdrBits b = shiftIn b.toList := rfl

theorem shiftIn_concat (bs : List Byte) (x : Byte) : shiftIn (bs ++ [x]) = (shiftIn bs <<< 8) ||| x.setWidth 112 := by
  simp [shiftIn, List.foldl_append]

/-- The byte shifted in last is the least significant one. -/
theorem extract_concat_zero (bs : List Byte) (x : Byte) : (shiftIn (bs ++ [x])).extractLsb' 0 8 = x := by
  rw [shiftIn_concat]
  apply BitVec.eq_of_getLsbD_eq
  intro i hi
  have hin : i < 112 := by omega
  simp [hi, hin]

/-- A byte shifted in moves the others up by one place. -/
theorem extract_concat_succ (bs : List Byte) (x : Byte) {j : Nat} (hj : j < 13) :
    (shiftIn (bs ++ [x])).extractLsb' (8 * (j + 1)) 8 = (shiftIn bs).extractLsb' (8 * j) 8 := by
  rw [shiftIn_concat]
  apply BitVec.eq_of_getLsbD_eq
  intro i hi
  have hplace : 8 * (j + 1) + i - 8 = 8 * j + i := by omega
  have hin : 8 * (j + 1) + i < 112 := by omega
  have hout : ¬ 8 * (j + 1) + i < 8 := by omega
  have hx : x.getLsbD (8 * (j + 1) + i) = false := BitVec.getLsbD_of_ge x _ (by omega)
  simp only [BitVec.getLsbD_extractLsb', BitVec.getLsbD_or, BitVec.getLsbD_shiftLeft, BitVec.getLsbD_setWidth, hi, hin,
    hout, hx, hplace, decide_true, decide_false, Bool.not_false, Bool.true_and, Bool.and_false, Bool.or_false]

/-- The bytes that were shifted in, counted from the last one. -/
theorem extract_shiftIn (bs : List Byte) {j : Nat} (hj : j < 14) {x : Byte} (hx : bs.reverse[j]? = some x) :
    (shiftIn bs).extractLsb' (8 * j) 8 = x := by
  induction bs using List.reverseRecOn generalizing j with
  | nil => simp at hx
  | append_singleton bs y ih =>
    rw [List.reverse_concat] at hx
    cases j with
    | zero =>
      cases hx
      exact extract_concat_zero bs x
    | succ j =>
      rw [extract_concat_succ bs y (by omega)]
      exact ih (by omega) hx

/-- R64: `RHDR[k]` in the 112 bits of RHDR. -/
theorem extract_rhdrBits (b : HBuf) (k : Fin 14) : (rhdrBits b).extractLsb' (104 - 8 * k.val) 8 = b[k] := by
  have hplace : 104 - 8 * k.val = 8 * (13 - k.val) := by omega
  rw [rhdrBits_eq, hplace]
  refine extract_shiftIn b.toList (by omega) ?_
  have hlast : 14 - 1 - (13 - k.val) = k.val := by omega
  rw [List.getElem?_reverse (by simp; omega), Vector.length_toList, hlast]
  simp

/-- Settles O8: STATUS, RSIZE, RES0 and RHDR stand side by side. -/
theorem responseWordLayout : Obligations.ResponseWordLayout := by
  intro r
  unfold responseWord
  refine ⟨?_, ?_, ?_, fun k => ?_⟩
  · iterate 3 rw [BitVec.extractLsb'_append_eq_of_le (by decide)]
    exact BitVec.extractLsb'_eq_self
  · iterate 2 rw [BitVec.extractLsb'_append_eq_of_le (by decide)]
    exact BitVec.extractLsb'_append_eq_right
  · rw [BitVec.extractLsb'_append_eq_of_le (by decide)]
    exact BitVec.extractLsb'_append_eq_right
  · rw [BitVec.extractLsb'_append_eq_of_add_le (by omega), extract_rhdrBits]

end Sys2Proof.Machine
end

section
/-! PROOFS. Text (R69, R70): the fields that a line gives are in range, so the command it spells is well formed and comes
back from its word. -/
namespace Sys2Proof.Machine

/-- An answer of two steps, the second after the first. -/
theorem ok_of_bind {ε α β : Type} {x : Except ε α} {f : α → Except ε β} {b : β} (h : (x >>= f) = .ok b) :
    ∃ a, x = .ok a ∧ f a = .ok b := by
  cases x with
  | error e => cases h
  | ok a => exact ⟨a, rfl, h⟩

/-! ## Fields -/

/-- R69: RSV and OPC, where a line has given them, are in their ranges. -/
structure AsmFields.InRange (f : AsmFields) : Prop where
  rsv : ∀ n, f.rsv = some n → n ≤ 7
  opc : ∀ n, f.opc = some n → n ≤ 15

theorem boundedValue_le {top n : Nat} {cs : List Char} (h : boundedValue top cs = some n) : n ≤ top := by
  unfold boundedValue at h
  split at h
  · split at h
    · rename_i hle
      cases h
      exact hle
    · cases h
  · cases h

/-- A field that is set holds the value it is set to. -/
theorem setField_ok {α : Type} {old value new : Option α} (h : setField old value = .ok new) : new = value := by
  cases old <;> cases value <;> cases h
  rfl

/-- Reading a field leaves RSV and OPC as they are, or sets one of them to a bounded value. -/
theorem readField_ok {f g : AsmFields} {text : List Char} (h : readField f text = .ok g) :
    (g.rsv = f.rsv ∨ ∃ cs, g.rsv = boundedValue 7 cs) ∧ (g.opc = f.opc ∨ ∃ cs, g.opc = boundedValue 15 cs) := by
  unfold readField at h
  split at h
  · cases h
  · rename_i name v _
    split_ifs at h
    all_goals
      obtain ⟨new, hnew, hg⟩ := ok_of_bind h
      cases hg
    · exact ⟨.inl rfl, .inl rfl⟩
    · exact ⟨.inr ⟨v, setField_ok hnew⟩, .inl rfl⟩
    · exact ⟨.inl rfl, .inr ⟨v, setField_ok hnew⟩⟩
    · exact ⟨.inl rfl, .inl rfl⟩
    · exact ⟨.inl rfl, .inl rfl⟩
    · exact ⟨.inl rfl, .inl rfl⟩
    · exact ⟨.inl rfl, .inl rfl⟩

theorem AsmFields.InRange.readField {f g : AsmFields} {text : List Char} (hf : f.InRange)
    (h : readField f text = .ok g) : g.InRange := by
  obtain ⟨hrsv, hopc⟩ := readField_ok h
  refine ⟨fun n hn => ?_, fun n hn => ?_⟩
  · rcases hrsv with hkept | ⟨cs, hset⟩
    · exact hf.rsv n (hkept ▸ hn)
    · exact boundedValue_le (hset ▸ hn)
  · rcases hopc with hkept | ⟨cs, hset⟩
    · exact hf.opc n (hkept ▸ hn)
    · exact boundedValue_le (hset ▸ hn)

theorem inRange_noFields : AsmFields.InRange {} := ⟨by simp, by simp⟩

theorem AsmFields.InRange.readFields {f g : AsmFields} {texts : List (List Char)} (hf : f.InRange)
    (h : texts.foldlM Machine.readField f = .ok g) : g.InRange := by
  induction texts generalizing f with
  | nil =>
    cases h
    exact hf
  | cons text texts ih =>
    obtain ⟨f', hf', hrest⟩ := ok_of_bind h
    exact ih (hf.readField hf') hrest

/-! ## Commands -/

theorem asmHeader_wellFormed {f : AsmFields} {h : Header} (hf : f.InRange) (hh : asmHeader f = .ok h) :
    h.wellFormed = true := by
  unfold asmHeader at hh
  split at hh
  · rename_i fin rsv opc masked len _ hrsv hopc _ _
    cases hh
    simp [Header.wellFormed, Header.rsvInRange, Header.opcInRange, hf.rsv rsv hrsv, hf.opc opc hopc]
  · cases hh

/-- The header of a command is the one that its fields give. -/
theorem asmInstr_header {op : Op} {f : AsmFields} {i : Instr} (h : asmInstr op f = .ok i) :
    asmHeader f = .ok i.header := by
  obtain ⟨hdr, hhdr, hi⟩ := ok_of_bind h
  rw [hhdr]
  split at hi <;> cases hi <;> rfl

theorem assemble_wellFormed {line : String} {i : Instr} (h : assemble line = .ok i) : i.wellFormed = true := by
  unfold assemble at h
  split at h
  · cases h
  · obtain ⟨op, -, h⟩ := ok_of_bind h
    obtain ⟨f, hf, h⟩ := ok_of_bind h
    exact asmHeader_wellFormed (inRange_noFields.readFields hf) (asmInstr_header h)

/-- Settles O7: the command is well formed, so its word and its payload carry it. -/
theorem assembledLineDecodesToItsCommand : Obligations.AssembledLineDecodesToItsCommand := by
  intro line i h
  have hwf := assemble_wellFormed h
  exact ⟨hwf, decode_encode hwf fun _ => rfl⟩

end Sys2Proof.Machine
end

section
/-! PROOFS. No step refuses (R61, R68, R102): each word carries an RSV in range, the one thing that acceptance can refuse. -/
namespace Sys2Proof.Machine

/-- A command whose RSV is in range runs at an IDLE `Inst`. -/
theorem exec_next_of_idleAt {s : State} {c : Inst} {i : Instr} (hc : IdleAt s s.turn c) (hr : i.header.rsv ≤ 7) :
    ∃ t, exec i s = .next t := by
  cases i with
  | size h =>
    have hrun : exec (.size h) s = _ := accepting_idle hc hr
    rw [hrun]
    split <;> exact ⟨_, rfl⟩
  | encode h =>
    have hrun : exec (.encode h) s = _ := accepting_idle hc hr
    rw [hrun]
    split <;> exact ⟨_, rfl⟩
  | writeHeader h => exact ⟨_, accepting_idle hc hr⟩
  | writeFrame h p => exact ⟨_, accepting_idle hc hr⟩

theorem exec_decode_next {s : State} {c : Inst} (hc : IdleAt s s.turn c) (w : CmdWord) (p : List Byte) :
    ∃ t, exec (decode w p) s = .next t :=
  exec_next_of_idleAt hc (by rw [decode_header]; exact cmdHeader_rsv_le w)

section
variable (s : State) (r : Refusal)

theorem presentRequest_ne_refused (k : Nat) (req : Request) : presentRequest k req s ≠ .refused r := by
  unfold presentRequest
  split <;> simp

theorem resetInst_ne_refused (k : Nat) : resetInst k s ≠ .refused r := by
  unfold resetInst
  split <;> simp

theorem otherWrite_ne_refused (j : Nat) (bytes : List Byte) : otherWrite j bytes s ≠ .refused r := by
  unfold otherWrite
  split <;> simp

theorem sinkAnswer_ne_refused (j n : Nat) (a : Reply) : sinkAnswer j n a s ≠ .refused r := by
  intro h
  unfold sinkAnswer at h
  repeat' split at h
  all_goals cases h

theorem stepAccept_ne_refused (k : Nat) : stepAccept k s ≠ .refused r := by
  unfold stepAccept
  cases hf : fetch k s with
  | absent => simp
  | held => simp
  | command i u =>
    obtain ⟨c, req, port, hc, -, rfl, rfl⟩ := fetch_eq_command hf
    obtain ⟨t, ht⟩ := exec_decode_next (taken_idleAt hc req port s.draws) req.cmd req.payload
    exact fun hrefused => nomatch ht.symm.trans hrefused

theorem stepMove_ne_refused (m : Move) : stepMove m s ≠ .refused r := by
  cases m with
  | present k req => exact presentRequest_ne_refused s r k req
  | accept k => exact stepAccept_ne_refused s r k
  | answer j n a => exact sinkAnswer_ne_refused s r j n a
  | reset k => exact resetInst_ne_refused s r k
  | otherWrite j bytes => exact otherWrite_ne_refused s r j bytes
end

/-- Settles O23: RSV of a word is in range, and no other move has anything to refuse. -/
theorem everyCommandWordRuns : Obligations.EveryCommandWordRuns := by
  refine ⟨fun s c w p hc => exec_decode_next hc w p, fun s r => ?_⟩
  cases hagenda : s.agenda with
  | nil => simp [step, hagenda]
  | cons m rest =>
    rw [step_cons hagenda]
    exact stepMove_ne_refused _ r m

end Sys2Proof.Machine
end

section
/-! PROOFS. Responses (R64, R66): each response that the machine gives has the fields of its STATUS, so a history of such
responses goes on as one. -/
namespace Sys2Proof.Machine

/-! ## The responses of the machine -/

/-- R56: the sizes of a header. -/
theorem wireSize_mem (masked : Bool) (l : Int) : wireSize masked l ∈ [2, 4, 6, 8, 10, 14] := by
  unfold wireSize
  split_ifs <;> decide

/-- R71: the size function gives the table's `n`. -/
theorem headerSize_eq_wireSize {d : Desc} {n : Nat} (h : headerSize d = some n) : n = wireSize d.masked d.len.toInt := by
  unfold headerSize at h
  unfold wireSize
  split at h
  · cases h
  · cases h
    unfold payloadLength
    split_ifs <;> rfl

/-- R66: a response OK with the size of a header. -/
theorem responseOk_of_size {n : Nat} (hn : n ∈ [2, 4, 6, 8, 10, 14]) (rhdr : HBuf) :
    ResponseOk { status := .ok, rsize := BitVec.ofNat 4 n, rhdr := rhdr, rerr := none } := by
  have hbound : n < 16 ∧ n ≠ 0 := by
    simp only [List.mem_cons, List.not_mem_nil, or_false] at hn
    omega
  have hsize : (BitVec.ofNat 4 n).toNat = n := Nat.mod_eq_of_lt hbound.1
  refine ⟨rfl, ?_, fun hzero => ?_⟩
  · rw [hsize]
    exact List.mem_cons_of_mem 0 hn
  · exact absurd (hsize ▸ congrArg BitVec.toNat hzero) hbound.2

theorem responseOk_sizeResponse {d : Desc} {n : Nat} (h : headerSize d = some n) : ResponseOk (sizeResponse n) :=
  responseOk_of_size (headerSize_eq_wireSize h ▸ wireSize_mem _ _) _

theorem responseOk_encodeResponse {d : Desc} {buf b : HBuf} {hlen : Fin 15} (h : encodeHeader d buf = some (b, hlen)) :
    ResponseOk (encodeResponse b hlen) :=
  responseOk_of_size (hlen_of_encodeHeader h ▸ wireSize_mem _ _) _

theorem responseOk_invalidLength : ResponseOk (errorResponse .invalidLength) := by
  rw [errorResponse_invalidLength]
  exact ⟨rfl, rfl, rfl⟩

theorem responseOk_answered (a : Answer) : ResponseOk (answeredResponse a) := by
  cases a with
  | ok => exact ⟨rfl, by decide, fun _ => rfl⟩
  | err e => exact ⟨rfl, rfl, rfl⟩

/-! ## The history -/

theorem ResponsesOk.congr {s t : State} (hs : ResponsesOk s) (htrace : t.trace = s.trace) : ResponsesOk t := by
  unfold ResponsesOk
  rwa [htrace]

/-- A history stays well formed when it shows an event that is no response, or a well-formed one. -/
theorem ResponsesOk.append {s t : State} {e : Event} (hs : ResponsesOk s) (htrace : t.trace = s.trace ++ [e])
    (he : ∀ k r, e = .respond k r → ResponseOk r) : ResponsesOk t := by
  intro k r hr
  rw [htrace, List.mem_append, List.mem_singleton] at hr
  rcases hr with hold | hnew
  · exact hs k r hold
  · exact he k r hnew.symm

theorem ResponsesOk.finish {s : State} {r : Response} (hs : ResponsesOk s) (hr : ResponseOk r) (k : Nat) (c : Inst) :
    ResponsesOk (finish k c r s) :=
  hs.append (finish_trace ..) fun _ _ he => by cases he; exact hr

theorem ResponsesOk.sinkWrite {s : State} (hs : ResponsesOk s) (k : Nat) (c : Inst) (bytes : List Byte) :
    ResponsesOk (sinkWrite k c bytes s) :=
  hs.append (sinkWrite_trace ..) nofun

theorem ResponsesOk.issueCall {s : State} (hs : ResponsesOk s) (k : Nat) (c : Inst) (p : Phase) (cur : Cur) :
    ResponsesOk (issueCall k c p cur s) :=
  hs.append (issueCall_trace ..) nofun

theorem ResponsesOk.taken {s : State} (hs : ResponsesOk s) (k : Nat) (c : Inst) (req : Request) (port : List Request)
    (n : Nat) : ResponsesOk (taken k c req port n s) :=
  hs.append (taken_trace ..) nofun

theorem ResponsesOk.heard {s : State} (hs : ResponsesOk s) (k : Nat) (a : Answer) :
    ResponsesOk (s.emit (.answer k a)) :=
  hs.append (emit_trace ..) nofun

/-! ## The acceptance step -/

theorem ResponsesOk.startWrite {s : State} (hs : ResponsesOk s) (op : Op) (d : Desc) (payload : Option (List Byte))
    (c : Inst) : ResponsesOk (startWrite op d payload c s) := by
  cases henc : encodeHeader d (staleBuf s.draws) with
  | none =>
    rw [startWrite_of_none henc]
    exact hs.finish responseOk_invalidLength s.turn c
  | some b =>
    rw [startWrite_of_some henc]
    refine ResponsesOk.issueCall ?_ s.turn c _ _
    exact hs.congr rfl

theorem ResponsesOk.exec {s t : State} {c : Inst} {i : Instr} (hs : ResponsesOk s) (hc : IdleAt s s.turn c)
    (ht : exec i s = .next t) : ResponsesOk t := by
  cases i with
  | size h =>
    have hrun := accepting_idle_next hc ht
    split at hrun <;> cases hrun
    · exact hs.finish responseOk_invalidLength s.turn c
    · rename_i hsize
      exact hs.finish (responseOk_sizeResponse hsize) s.turn c
  | encode h =>
    have hrun := accepting_idle_next hc ht
    split at hrun <;> cases hrun
    · exact hs.finish responseOk_invalidLength s.turn c
    · rename_i henc
      exact (hs.finish (responseOk_encodeResponse henc) s.turn c).congr rfl
  | writeHeader h =>
    cases accepting_idle_next hc ht
    exact hs.startWrite .writeHeader _ none c
  | writeFrame h payload =>
    cases accepting_idle_next hc ht
    exact hs.startWrite .writeFrame _ (some payload) c

theorem ResponsesOk.stepAccept {s t : State} {k : Nat} (hs : ResponsesOk s) (ht : stepAccept k s = .next t) :
    ResponsesOk t := by
  unfold Machine.stepAccept at ht
  cases hf : fetch k s with
  | absent => simp [hf] at ht
  | held =>
    simp only [hf] at ht
    cases ht
    exact hs
  | command i u =>
    simp only [hf] at ht
    obtain ⟨c, req, port, hc, -, -, rfl⟩ := fetch_eq_command hf
    exact (hs.taken k c req port s.draws).exec (taken_idleAt hc req port s.draws) ht

/-! ## The sink-answer step -/

theorem ResponsesOk.finishWrite {s : State} (hs : ResponsesOk s) (k : Nat) (c : Inst) (a : Answer) :
    ResponsesOk (finishWrite k c a (s.emit (.answer k a))) := by
  rw [finishWrite_eq_finish]
  exact (hs.heard k a).finish (responseOk_answered a) k c

theorem ResponsesOk.answerFrameHeader {s : State} (hs : ResponsesOk s) (k : Nat) (c : Inst) (cur : Cur)
    (payload : List Byte) (a : Answer) :
    ResponsesOk (answerFrameHeader k c cur payload a (s.emit (.answer k a))) := by
  cases a with
  | ok =>
    refine ResponsesOk.sinkWrite ?_ k c payload
    exact (hs.heard k .ok).congr rfl
  | err e => exact hs.finishWrite k c (.err e)

theorem ResponsesOk.coreAnswer {s : State} (hs : ResponsesOk s) (k : Nat) (c : Inst) (a : Answer) :
    ResponsesOk (coreAnswer k c a s) := by
  unfold Machine.coreAnswer
  split
  · split
    · exact hs.finishWrite k c a
    · exact hs.answerFrameHeader k c _ _ a
    all_goals exact hs
  · exact hs.finishWrite k c a
  all_goals exact hs

theorem ResponsesOk.sinkAnswer {s t : State} {j n : Nat} {r : Reply} (hs : ResponsesOk s)
    (ht : sinkAnswer j n r s = .next t) : ResponsesOk t := by
  obtain ⟨q, call, -, -, -, rfl⟩ := sinkAnswer_next ht
  have hsettled : ResponsesOk (s.setSink j (settled q n call r)) := hs.congr rfl
  rcases deliverAnswer_cases call.writer j n r.seen (s.setSink j (settled q n call r)) with hnone | ⟨k, c, -, -, -, hcore⟩
  · rwa [hnone]
  · rw [hcore]
    exact hsettled.coreAnswer k c r.seen

/-! ## One step -/

theorem ResponsesOk.stepMove {s t : State} {m : Move} (hs : ResponsesOk s) (ht : stepMove m s = .next t) :
    ResponsesOk t := by
  cases m with
  | present k r =>
    cases moved_of_presentRequest ht
    exact hs.congr rfl
  | accept k => exact hs.stepAccept ht
  | answer j n r => exact hs.sinkAnswer ht
  | reset k =>
    cases moved_of_resetInst ht
    exact hs.congr rfl
  | otherWrite j bytes =>
    cases moved_of_otherWrite ht
    exact hs.congr (receive_trace ..)

/-- Settles O44: the one event that a move adds to the history and that is a response has the fields of its STATUS. -/
theorem everyStepKeepsResponsesWellFormed : Obligations.EveryStepKeepsResponsesWellFormed := by
  intro s t hs ht
  cases hagenda : s.agenda with
  | nil =>
    simp only [step, hagenda] at ht
    cases ht
    exact hs
  | cons m rest =>
    rw [step_cons hagenda] at ht
    have hrest : ResponsesOk { s with agenda := rest } := hs.congr rfl
    exact hrest.stepMove ht

end Sys2Proof.Machine
end

section
/-! PROOFS. The size function (R71, R74) and SIZE (R72, R73): the size function is the table of R56 with Invalid for a
negative length, and SIZE at an IDLE `Inst` ends in its acceptance step with what the table says. -/
namespace Sys2Proof.Machine

/-! ## The size function -/

theorem headerSize_of_neg {d : Desc} (hlen : d.len.toInt < 0) : headerSize d = none := if_pos hlen

theorem headerSize_of_nonneg {d : Desc} (hlen : 0 ≤ d.len.toInt) :
    headerSize d = some (wireSize d.masked d.len.toInt) := by
  obtain ⟨n, hn⟩ : ∃ n, headerSize d = some n := ⟨_, if_neg (not_lt.mpr hlen)⟩
  rw [hn, headerSize_eq_wireSize hn]

/-- R56: in each row of the table the mask key takes 4 bytes. -/
theorem wireSize_masked (l : Int) : wireSize true l = wireSize false l + 4 := by
  simp only [wireSize, if_true, Bool.false_eq_true, if_false]
  split_ifs <;> rfl

/-- Settles O9: the mask does not change the sign of the length, and the table adds 4 in each row. -/
theorem maskAddsFourBytes : Obligations.MaskAddsFourBytes := by
  intro d
  rcases lt_or_ge d.len.toInt 0 with hneg | hnonneg
  · rw [headerSize_of_neg (d := { d with masked := true }) hneg,
      headerSize_of_neg (d := { d with masked := false }) hneg]
    rfl
  · rw [headerSize_of_nonneg (d := { d with masked := true }) hnonneg,
      headerSize_of_nonneg (d := { d with masked := false }) hnonneg]
    exact congrArg some (wireSize_masked _)

/-! ## SIZE -/

/-- R72: what SIZE answers to a header description. -/
def sizeAnswer (h : Header) : Response :=
  if h.len.toInt < 0 then invalidLengthResponse
  else { status := .ok, rsize := BitVec.ofNat 4 (wireSize h.masked h.len.toInt), rhdr := zeroHdr, rerr := none }

theorem sizeAnswer_of_neg {h : Header} (hlen : h.len.toInt < 0) : sizeAnswer h = errorResponse .invalidLength := by
  rw [errorResponse_invalidLength]
  exact if_pos hlen

theorem sizeAnswer_of_nonneg {h : Header} (hlen : 0 ≤ h.len.toInt) :
    sizeAnswer h = sizeResponse (wireSize h.masked h.len.toInt) := by
  rw [sizeResponse, padHeader_nil]
  exact if_neg (not_lt.mpr hlen)

/-- R72: SIZE at an IDLE `Inst` ends in its acceptance step. -/
theorem exec_size_of_idleAt {s : State} {c : Inst} {h : Header} (hc : IdleAt s s.turn c) (hr : h.rsv ≤ 7) :
    exec (.size h) s = .next (finish s.turn c (sizeAnswer h) s) := by
  have hrun : exec (.size h) s = _ := accepting_idle hc hr
  rw [hrun]
  rcases lt_or_ge h.len.toInt 0 with hneg | hnonneg
  · rw [headerSize_of_neg (d := descOf h) hneg, sizeAnswer_of_neg hneg]
    rfl
  · rw [headerSize_of_nonneg (d := descOf h) hnonneg, sizeAnswer_of_nonneg hnonneg]
    rfl

/-- R61: OP = 0 is SIZE, whatever the payload port holds. -/
theorem decode_size {w : CmdWord} (hop : w.extractLsb' 126 2 = 0#2) (p : List Byte) :
    decode w p = .size (cmdHeader w) := by
  simp [decode, cmdOp, hop, opOfCode]

/-- Settles O16: the end of SIZE at an IDLE `Inst`, for a header description and for the one that a word carries. -/
theorem sizeAnswersTheHeaderSize : Obligations.SizeAnswersTheHeaderSize := by
  intro s c hc
  refine ⟨fun h hr => exec_size_of_idleAt hc hr, fun w p hop => ?_⟩
  rw [decode_size hop]
  exact exec_size_of_idleAt hc (cmdHeader_rsv_le w)

end Sys2Proof.Machine
end

section
/-! PROOFS. The header encoder (R77, R80, R82, R83): the fields of the two base bytes, the cells that it leaves alone,
and its agreement with the size function. -/
namespace Sys2Proof.Machine

/-! ## The base bytes -/

/-- Settles O15: the base bytes are their fields side by side. -/
theorem baseBytesHoldTheFieldsVerbatim : Obligations.BaseBytesHoldTheFieldsVerbatim := by
  intro d lc
  rw [packByte0_eq, packByte1_eq]
  refine ⟨?_, ?_, BitVec.extractLsb'_append_eq_right, ?_, BitVec.extractLsb'_append_eq_right⟩
  · rw [BitVec.getLsbD_append, BitVec.getLsbD_append]
    simp
  · rw [BitVec.extractLsb'_append_eq_of_le (by decide)]
    exact BitVec.extractLsb'_append_eq_right
  · rw [BitVec.getLsbD_append]
    simp

/-! ## The size -/

/-- R82: a length that is not negative has a header, and HLEN is the table's `n`. -/
theorem encodeHeader_of_nonneg {d : Desc} (hlen : 0 ≤ d.len.toInt) (buf : HBuf) :
    ∃ b n, encodeHeader d buf = some (b, n) ∧ n.val = wireSize d.masked d.len.toInt :=
  have henc := encodeHeader_eq d buf hlen
  ⟨_, _, henc, hlen_of_encodeHeader henc⟩

/-- Settles O10: both are Invalid on a negative length, and both give the table's `n` on any other. -/
theorem sizeAndEncoderAgree : Obligations.SizeAndEncoderAgree := by
  intro d buf
  rcases lt_or_ge d.len.toInt 0 with hneg | hnonneg
  · simp [headerSize_of_neg hneg, encodeHeader_negative buf hneg]
  · obtain ⟨b, hlen, henc, hsize⟩ := encodeHeader_of_nonneg hnonneg buf
    simp [headerSize_of_nonneg hnonneg, henc, hsize]

/-! ## The unused cells -/

/-- A run of cell writes leaves the cells behind it alone. -/
theorem writeCells_getElem_of_ge (buf : HBuf) {off k : Nat} {bs : List Byte} (hk : k < 14)
    (hend : off + bs.length ≤ k) : (writeCells buf off bs)[k] = buf[k] := by
  rw [writeCells_getElem, dif_neg (by omega)]

theorem unkeyedCells_getElem_of_ge (d : Desc) (buf : HBuf) {k : Nat} (hk : k < 14)
    (hend : (wireUnkeyed d).length ≤ k) : (unkeyedCells d buf)[k] = buf[k] := by
  rw [wireUnkeyed_length] at hend
  have hbyte0 : 0 + [packByte0 d].length ≤ k := by rw [List.length_singleton]; omega
  have hbyte1 : 1 + [packByte1 d (wireLc (payloadLength d))].length ≤ k := by rw [List.length_singleton]; omega
  rw [unkeyedCells, writeCells_getElem_of_ge _ hk hend, writeCells_getElem_of_ge _ hk hbyte1,
    writeCells_getElem_of_ge _ hk hbyte0]

/-- R82: HLEN is where the last run of cell writes, the mask key's, ends. -/
theorem hlen_eq_unkeyed_add_key {d : Desc} {buf b : HBuf} {hlen : Fin 15} (henc : encodeHeader d buf = some (b, hlen)) :
    hlen.val = (wireUnkeyed d).length + (wireKey d).length := by
  rw [hlen_of_encodeHeader henc, ← wireHeader_length, wireHeader_eq, List.length_append]

/-- Settles O12: every run of cell writes ends at HLEN or before. -/
theorem encoderKeepsTheUnusedCells : Obligations.EncoderKeepsTheUnusedCells := by
  intro d buf b hlen henc k hk
  obtain ⟨hnonneg, -⟩ := headerBytes_of_encodeHeader henc
  rw [hlen_eq_unkeyed_add_key henc] at hk
  cases (encodeHeader_eq d buf hnonneg).symm.trans henc
  have hkey := writeCells_getElem_of_ge (unkeyedCells d buf) k.isLt hk
  exact hkey.trans (unkeyedCells_getElem_of_ge d buf k.isLt (by omega))

end Sys2Proof.Machine
end

section
/-! PROOFS. ENCODE (R84): at an IDLE `Inst` it ends in its acceptance step with the wire format in RHDR. -/
namespace Sys2Proof.Machine

/-- R84: the machine's padding of header bytes with 0 is the rule's. -/
theorem padHeader_eq_paddedHdr (bs : List Byte) : padHeader bs = paddedHdr bs := by
  refine congrArg Vector.ofFn (funext fun i => ?_)
  rcases lt_or_ge i.val bs.length with hin | hpad
  · rw [List.getD_append _ _ _ _ hin]
  · rw [List.getD_append_right _ _ _ _ hpad, List.getD_eq_default _ _ hpad, List.getD_replicate _ (by omega)]

/-- R84: what ENCODE answers to a header description. -/
def encodeAnswer (h : Header) : Response :=
  if h.len.toInt < 0 then invalidLengthResponse
  else { status := .ok, rsize := BitVec.ofNat 4 (wireSize h.masked h.len.toInt)
         rhdr := paddedHdr (wireHeader (descOf h)), rerr := none }

theorem encodeAnswer_of_neg {h : Header} (hlen : h.len.toInt < 0) : encodeAnswer h = errorResponse .invalidLength := by
  rw [errorResponse_invalidLength]
  exact if_pos hlen

/-- R84: the header that the encoder makes is the one that ENCODE answers. -/
theorem encodeAnswer_of_encodeHeader {h : Header} {buf b : HBuf} {hlen : Fin 15}
    (henc : encodeHeader (descOf h) buf = some (b, hlen)) : encodeAnswer h = encodeResponse b hlen := by
  obtain ⟨hnonneg, hbytes⟩ := headerBytes_of_encodeHeader henc
  rw [encodeResponse, hbytes, hlen_of_encodeHeader henc, padHeader_eq_paddedHdr]
  exact if_neg (not_lt.mpr hnonneg)

/-- R84: ENCODE at an IDLE `Inst` ends in its acceptance step; it draws a fresh HBUF, or none (log entry 5). -/
theorem exec_encode_of_idleAt {s : State} {c : Inst} {h : Header} (hc : IdleAt s s.turn c) (hr : h.rsv ≤ 7) :
    ∃ n, exec (.encode h) s = .next (finish s.turn c (encodeAnswer h) { s with draws := n }) := by
  have hrun : exec (.encode h) s = _ := accepting_idle hc hr
  rw [hrun]
  rcases lt_or_ge h.len.toInt 0 with hneg | hnonneg
  · rw [encodeHeader_negative (d := descOf h) _ hneg, encodeAnswer_of_neg hneg]
    exact ⟨s.draws, rfl⟩
  · obtain ⟨b, hlen, henc, -⟩ := encodeHeader_of_nonneg (d := descOf h) hnonneg (staleBuf s.draws)
    rw [henc, encodeAnswer_of_encodeHeader henc]
    exact ⟨s.draws + 1, rfl⟩

/-- R61: OP = 1 is ENCODE, whatever the payload port holds. -/
theorem decode_encodeOp {w : CmdWord} (hop : w.extractLsb' 126 2 = 1#2) (p : List Byte) :
    decode w p = .encode (cmdHeader w) := by
  simp [decode, cmdOp, hop, opOfCode]

/-- Settles O17: the end of ENCODE at an IDLE `Inst`, for a header description and for the one that a word carries. -/
theorem encodeAnswersTheHeaderBytes : Obligations.EncodeAnswersTheHeaderBytes := by
  intro s c hc
  refine ⟨fun h hr => exec_encode_of_idleAt hc hr, fun w p hop => ?_⟩
  rw [decode_encodeOp hop]
  exact exec_encode_of_idleAt hc (cmdHeader_rsv_le w)

end Sys2Proof.Machine
end

section
/-! PROOFS. WRITE_HEADER (R85, R86): its acceptance step, which issues the header as that of every writing command does,
and the answer that ends it. -/
namespace Sys2Proof.Machine

/-! ## The acceptance step -/

/-- `cur` is the operation `op` on the descriptor `d` with `payload` in PAYLOAD, and holds the header of `d` in HBUF. -/
structure HeaderCur (cur : Cur) (op : Op) (d : Desc) (payload : Option (List Byte)) : Prop where
  op      : cur.op = op
  desc    : cur.desc = d
  payload : cur.payload = payload
  header  : headerBytes cur.hbuf cur.hlen = wireHeader d

/-- R85, R87: with a length that is not negative a writing command issues its header. -/
theorem startWrite_of_nonneg {d : Desc} (hlen : 0 ≤ d.len.toInt) (op : Op) (payload : Option (List Byte)) (c : Inst)
    (s : State) : ∃ cur, HeaderCur cur op d payload ∧
      startWrite op d payload c s = issueCall s.turn c .waitHdr cur { s with draws := s.draws + 1 } := by
  have henc := encodeHeader_eq d (staleBuf s.draws) hlen
  exact ⟨_, ⟨rfl, rfl, rfl, (headerBytes_of_encodeHeader henc).2⟩, startWrite_of_some henc ..⟩

/-- R35: the state after a write call is issued, written out. -/
theorem issueCall_eq (k : Nat) (c : Inst) (p : Phase) (cur : Cur) (s : State) :
    issueCall k c p cur s = { s with
      insts := s.insts.set k { c with phase := p, cur := some { cur with call := nextCall c s } }
      sinks := received s.sinks c.sink
        { writer := .core k, bytes := outstandingBytes { c with phase := p } cur, answer := none }
      trace := s.trace ++ [.issue k (outstandingBytes { c with phase := p } cur)] } :=
  State.eq_of_fields (issueCall_insts ..) (issueCall_sinks ..) (issueCall_agenda ..) (issueCall_turn ..)
    (issueCall_trace ..) (issueCall_draws ..)

/-- R85: with a negative length WRITE_HEADER ends at once. -/
theorem exec_writeHeader_of_neg {s : State} {c : Inst} {h : Header} (hc : IdleAt s s.turn c) (hr : h.rsv ≤ 7)
    (hlen : h.len.toInt < 0) : exec (.writeHeader h) s = .next (finish s.turn c invalidLengthResponse s) := by
  have hrun : exec (.writeHeader h) s = .next (startWrite .writeHeader (descOf h) none c s) := accepting_idle hc hr
  rw [hrun, startWrite_of_none (encodeHeader_negative (d := descOf h) _ hlen), errorResponse_invalidLength]

/-- R85: with any other length WRITE_HEADER issues its header. -/
theorem exec_writeHeader_of_nonneg {s : State} {c : Inst} {h : Header} (hc : IdleAt s s.turn c) (hr : h.rsv ≤ 7)
    (hlen : 0 ≤ h.len.toInt) : ∃ cur, HeaderCur cur .writeHeader (descOf h) none ∧
      exec (.writeHeader h) s = .next (issueCall s.turn c .waitHdr cur { s with draws := s.draws + 1 }) := by
  have hrun : exec (.writeHeader h) s = .next (startWrite .writeHeader (descOf h) none c s) := accepting_idle hc hr
  obtain ⟨cur, hcur, hstart⟩ := startWrite_of_nonneg (d := descOf h) hlen .writeHeader none c s
  exact ⟨cur, hcur, hrun.trans (congrArg _ hstart)⟩

/-- R61: OP = 2 is WRITE_HEADER, whatever the payload port holds. -/
theorem decode_writeHeader {w : CmdWord} (hop : w.extractLsb' 126 2 = 2#2) (p : List Byte) :
    decode w p = .writeHeader (cmdHeader w) := by
  simp [decode, cmdOp, hop, opOfCode]

/-- Settles O18: the acceptance step for a header description, on either side of length 0, and so for the one that a
word carries. -/
theorem writeHeaderIssuesTheHeader : Obligations.WriteHeaderIssuesTheHeader := by
  intro s c hc runs
  have hruns : ∀ h : Header, h.rsv ≤ 7 → runs h (exec (.writeHeader h) s) := by
    refine fun h hr => ⟨fun hneg => exec_writeHeader_of_neg hc hr hneg, fun hnonneg => ?_⟩
    obtain ⟨cur, hcur, hexec⟩ := exec_writeHeader_of_nonneg hc hr hnonneg
    have hbytes : outstandingBytes { c with phase := .waitHdr } cur = wireHeader (descOf h) := hcur.header
    rw [hexec, issueCall_eq, hbytes]
    exact ⟨_, _, rfl, hcur.op, hcur.desc, hcur.payload, hcur.header, fun j q hj hq => nextCall_eq hj hq⟩
  refine ⟨hruns, fun w p hop => ?_⟩
  rw [decode_writeHeader hop]
  exact hruns (cmdHeader w) (cmdHeader_rsv_le w)

/-! ## The sink-answer step -/

/-- R85: in WAIT_HDR the outstanding call is the header's. -/
theorem outstandingBytes_waitHdr {c : Inst} (hphase : c.phase = .waitHdr) (cur : Cur) :
    outstandingBytes c cur = headerBytes cur.hbuf cur.hlen := by
  simp [outstandingBytes, hphase]

/-- R86: the answer to its header ends a WRITE_HEADER. -/
theorem coreAnswer_writeHeader {c : Inst} {cur : Cur} (hphase : c.phase = .waitHdr) (hcur : c.cur = some cur)
    (hop : cur.op = .writeHeader) (k : Nat) (a : Answer) (s : State) :
    coreAnswer k c a s = finish k c (answeredResponse a) (s.emit (.answer k a)) := by
  simp [coreAnswer, hphase, hcur, hop, answerWriteHeader, finishWrite_eq_finish]

/-- Settles O29: the answer reaches the `Inst` that waits for it, and ends its command. -/
theorem writeHeaderEndsWithTheAnswer : Obligations.WriteHeaderEndsWithTheAnswer := by
  intro s rest k j c cur q r hagenda hwait hphase hop
  obtain ⟨hc, hcur, hserved, hq, hcall⟩ := hwait
  have hwait' : WaitingAt { s with agenda := rest } k j c cur q := ⟨hc, hcur, hserved, hq, hcall⟩
  rw [step_cons hagenda, stepMove, sinkAnswer_of_waitingAt hwait' (by simp [hphase]),
    coreAnswer_writeHeader hphase hcur hop, outstandingBytes_waitHdr hphase]
  refine congrArg _ (State.eq_of_fields rfl rfl rfl rfl ?_ rfl)
  exact List.append_assoc ..

end Sys2Proof.Machine
end

section
/-! PROOFS. WRITE_FRAME (R87 to R89), step by step: its acceptance step, the answer to its header, and the answer to its
payload. -/
namespace Sys2Proof.Machine

/-! ## The acceptance step -/

/-- R87: WRITE_FRAME at an IDLE `Inst` starts to write, with the payload latched. -/
theorem exec_writeFrame_of_idleAt {s : State} {c : Inst} {h : Header} (hc : IdleAt s s.turn c) (hr : h.rsv ≤ 7)
    (p : List Byte) : exec (.writeFrame h p) s = .next (startWrite .writeFrame (descOf h) (some p) c s) :=
  accepting_idle hc hr

/-- Settles O19: the acceptance step for a header description, on either side of length 0, and so for the one that a
word carries. -/
theorem writeFrameIssuesTheHeader : Obligations.WriteFrameIssuesTheHeader := by
  intro s c hc runs
  have hruns : ∀ (h : Header) (p : List Byte), h.rsv ≤ 7 → runs h p (exec (.writeFrame h p) s) := by
    intro h p hr
    rw [exec_writeFrame_of_idleAt hc hr]
    refine ⟨fun hneg => ?_, fun hnonneg => ?_⟩
    · rw [startWrite_of_none (encodeHeader_negative (d := descOf h) _ hneg), errorResponse_invalidLength]
      rfl
    · obtain ⟨cur, hcur, hstart⟩ := startWrite_of_nonneg (d := descOf h) hnonneg .writeFrame (some p) c s
      have hbytes : outstandingBytes { c with phase := .waitHdr } cur = wireHeader (descOf h) := hcur.header
      rw [hstart, issueCall_eq, hbytes]
      exact ⟨_, _, rfl, hcur.op, hcur.desc, hcur.payload, hcur.header, fun j q hj hq => nextCall_eq hj hq⟩
  refine ⟨hruns, fun w p hop => ?_⟩
  rw [decode_writeFrame hop]
  exact hruns (cmdHeader w) p (cmdHeader_rsv_le w)

/-! ## The sink-answer steps -/

section
variable {s : State} {rest : List Move} {k j : Nat} {c : Inst} {cur : Cur} {q : Sink} {r : Reply}
  (hagenda : s.agenda = .answer j cur.call r :: rest) (hwait : WaitingAt s k j c cur q) (hbusy : c.phase ≠ .idle)

include hagenda hwait hbusy

/-- R86, R88, R89: the step in which the awaited answer comes: the sink settles the call, and `Inst` `k` goes on. -/
theorem step_answer_of_waitingAt : step s = .next (coreAnswer k c r.seen { s with
    agenda := rest
    sinks := s.sinks.set j
      (settled q cur.call { writer := .core k, bytes := outstandingBytes c cur, answer := none } r) }) := by
  obtain ⟨hc, hcur, hserved, hq, hcall⟩ := hwait
  rw [step_cons hagenda]
  exact sinkAnswer_of_waitingAt (s := { s with agenda := rest }) ⟨hc, hcur, hserved, hq, hcall⟩ hbusy r

/-- R88, R89: the step of an answer that ends the command, written out. -/
theorem step_answer_of_ends (hends : ∀ t, coreAnswer k c r.seen t =
      finish k c (answeredResponse r.seen) (t.emit (.answer k r.seen))) :
    step s = .next { s with
      agenda := rest
      insts := s.insts.set k { c with phase := .idle, cur := none }
      sinks := s.sinks.set j
        (settled q cur.call { writer := .core k, bytes := outstandingBytes c cur, answer := none } r)
      trace := s.trace ++ [.answer k r.seen, .respond k (answeredResponse r.seen)] } := by
  rw [step_answer_of_waitingAt hagenda hwait hbusy, hends]
  exact congrArg _ (State.eq_of_fields rfl rfl rfl rfl (List.append_assoc ..) rfl)

end

/-- R87, R88: in WAIT_PAY the outstanding call is the payload's. -/
theorem outstandingBytes_waitPay {c : Inst} {cur : Cur} {p : List Byte} (hphase : c.phase = .waitPay)
    (hpayload : cur.payload = some p) : outstandingBytes c cur = p := by
  simp [outstandingBytes, hphase, hpayload]

/-- R35: a sink that was just replaced receives a call. -/
theorem received_set (sinks : List Sink) (j : Nat) (q : Sink) (call : Call) :
    received (sinks.set j q) (some j) call = sinks.set j { q with wlog := q.wlog ++ [call] } := by
  simp only [received, List.set_eq_modify, List.modify_modify_eq]
  rfl

/-- R88: the step in which the header is answered `Ok`: the payload is issued behind all that the sink has received. -/
theorem step_headerOk_of_waitingAt {s : State} {rest : List Move} {k j : Nat} {c : Inst} {cur : Cur} {q : Sink}
    {p : List Byte} (hagenda : s.agenda = .answer j cur.call .ok :: rest) (hwait : WaitingAt s k j c cur q)
    (hphase : c.phase = .waitHdr) (hop : cur.op = .writeFrame) (hpayload : cur.payload = some p) :
    step s = .next { s with
      agenda := rest
      insts := s.insts.set k { c with phase := .waitPay, cur := some { cur with call := q.wlog.length } }
      sinks := s.sinks.set j
        { out := q.out ++ headerBytes cur.hbuf cur.hlen
          wlog := q.wlog.set cur.call (coreCall k (headerBytes cur.hbuf cur.hlen) (some .ok)) ++ [coreCall k p none] }
      trace := s.trace ++ [.answer k .ok, .issue k p] } := by
  have hpay : outstandingBytes { c with phase := .waitPay } cur = p := outstandingBytes_waitPay rfl hpayload
  rw [step_answer_of_waitingAt hagenda hwait (by simp [hphase]), Reply.seen,
    coreAnswer_header_ok k _ hphase hwait.curAt hop hpayload, outstandingBytes_waitHdr hphase, issueCall_eq, hpay]
  refine congrArg _ (State.eq_of_fields ?_ ?_ rfl rfl (List.append_assoc ..) rfl)
  · rw [nextCall_eq hwait.served (getElem?_set_of_some hwait.sinkAt _), settled_wlog, List.length_set]
    rfl
  · rw [hwait.served]
    exact received_set ..

/-- Settles O30: `Ok` issues the payload, and `Err` ends the command. -/
theorem writeFrameHeaderAnswer : Obligations.WriteFrameHeaderAnswer := by
  intro s rest k j c cur q p hwait hphase hop hpayload
  refine ⟨fun hagenda => step_headerOk_of_waitingAt hagenda hwait hphase hop hpayload, fun e kept hagenda => ?_⟩
  rw [← outstandingBytes_waitHdr hphase]
  exact step_answer_of_ends hagenda hwait (by simp [hphase]) fun t =>
    coreAnswer_header_err k t hphase hwait.curAt hop hpayload e

/-- Settles O31: in WAIT_PAY every answer ends the command. -/
theorem writeFrameEndsWithThePayloadAnswer : Obligations.WriteFrameEndsWithThePayloadAnswer := by
  intro s rest k j c cur q p r hagenda hwait hphase hpayload
  rw [← outstandingBytes_waitPay hphase hpayload]
  exact step_answer_of_ends hagenda hwait (by simp [hphase]) fun t => coreAnswer_payload k t hphase hwait.curAt r.seen

end Sys2Proof.Machine
end

section
/-! PROOFS. One step seen from one CORE (R106, R109): a move that does not concern it leaves it alone, and while it
waits only a reset or the awaited answer takes it out of its command. -/
namespace Sys2Proof.Machine

/-! ## The events of one CORE -/

/-- The number of the CORE that shows an event (R30). -/
def Event.shownBy : Event → Nat
  | .accept k _ _ => k
  | .issue k _ => k
  | .answer k _ => k
  | .respond k _ => k

/-- The events that CORE `k` has shown, oldest first. -/
def State.shown (s : State) (k : Nat) : List Event := s.trace.filter fun e => e.shownBy = k

theorem accepted_eq_shown (s : State) (k : Nat) : s.accepted k = (s.shown k).countP (isAccept k) := by
  rw [State.accepted, State.shown, List.countP_filter]
  refine congrArg (s.trace.countP ·) (funext fun e => ?_)
  cases e with
  | accept => exact (Bool.and_self _).symm
  | issue | answer | respond => rfl

theorem responded_eq_shown (s : State) (k : Nat) : s.responded k = (s.shown k).countP (isRespond k) := by
  rw [State.responded, State.shown, List.countP_filter]
  refine congrArg (s.trace.countP ·) (funext fun e => ?_)
  cases e with
  | respond => exact (Bool.and_self _).symm
  | accept | issue | answer => rfl

/-! ## A move that does not concern CORE `k` -/

/-- CORE `k` is in `t` as it was in `s`, and has shown no event in between. -/
structure Untouched (k : Nat) (s t : State) : Prop where
  inst  : t.insts[k]? = s.insts[k]?
  shown : t.shown k = s.shown k

section
variable {i k : Nat} {s t u : State}

theorem Untouched.trans (hst : Untouched k s t) (htu : Untouched k t u) : Untouched k s u :=
  ⟨htu.inst.trans hst.inst, htu.shown.trans hst.shown⟩

theorem Untouched.congr (hinst : t.insts[k]? = s.insts[k]?) (htrace : t.trace = s.trace) : Untouched k s t :=
  ⟨hinst, congrArg (List.filter _) htrace⟩

/-- An event of another CORE. -/
theorem Untouched.shows {e : Event} (he : e.shownBy ≠ k) (hinst : t.insts[k]? = s.insts[k]?)
    (htrace : t.trace = s.trace ++ [e]) : Untouched k s t :=
  ⟨hinst, by simp [State.shown, htrace, List.filter_append, he]⟩

/-! What the shared operations do at CORE `i` does not touch CORE `k`. -/

variable (hik : i ≠ k)
include hik

theorem untouched_setInst (c : Inst) : Untouched k s (s.setInst i c) := .congr (List.getElem?_set_ne hik) rfl

theorem untouched_finish (c : Inst) (r : Response) : Untouched k s (finish i c r s) :=
  .shows (e := .respond i r) hik (List.getElem?_set_ne hik) rfl

theorem untouched_issueCall (c : Inst) (p : Phase) (cur : Cur) : Untouched k s (issueCall i c p cur s) := by
  refine .shows (e := .issue i _) hik ?_ (issueCall_trace i c p cur s)
  rw [issueCall_insts]
  exact List.getElem?_set_ne hik

theorem untouched_taken (c : Inst) (req : Request) (port : List Request) (n : Nat) :
    Untouched k s (taken i c req port n s) :=
  .shows (e := .accept i req.cmd req.payload) hik (List.getElem?_set_ne hik) rfl

theorem untouched_heard (j n : Nat) (q : Sink) (call : Call) (r : Reply) :
    Untouched k s (heard i j n q call r s) :=
  .shows (e := .answer i r.seen) hik rfl rfl

end

/-- The answer to an unanswered call concerns the CORE that issued it, and no other. -/
theorem concerns_answer_iff {s : State} {j n : Nat} {q : Sink} {call : Call} (hcall : OpenCall s j n q call) (k : Nat)
    (r : Reply) : concerns s k (.answer j n r) ↔ call.writer = .core k := by
  refine ⟨?_, fun hwriter => ⟨q, call, hcall.sinkAt, hcall.callAt, hwriter⟩⟩
  rintro ⟨q', call', hq, hn, hwriter⟩
  cases hcall.sinkAt.symm.trans hq
  cases hcall.callAt.symm.trans hn
  exact hwriter

/-- R106: whatever a move does to a CORE, it does to one that it concerns. -/
theorem Moved.untouched {s t : State} {m : Move} (h : Moved s m t) {k : Nat} (hk : ¬ concerns s k m) :
    Untouched k s t := by
  cases h with
  | held => exact .congr rfl rfl
  | presented => exact untouched_setInst hk _
  | wasReset => exact untouched_setInst hk _
  | otherIssued => exact .congr (by rw [receive_insts]) (receive_trace ..)
  | ended => exact (untouched_taken hk ..).trans (untouched_finish hk ..)
  | headerIssued => exact (untouched_taken hk ..).trans (untouched_issueCall hk ..)
  | unheard => exact .congr rfl rfl
  | @answered j n r q call i _ _ hcall hwriter =>
    have hik : i ≠ k := fun hik => hk ((concerns_answer_iff hcall k r).mpr (hik ▸ hwriter))
    exact (untouched_heard hik ..).trans (untouched_finish hik ..)
  | @payloadIssued j n r q call i _ _ hcall hwriter =>
    have hik : i ≠ k := fun hik => hk ((concerns_answer_iff hcall k r).mpr (hik ▸ hwriter))
    exact (untouched_heard hik ..).trans (untouched_issueCall hik ..)

/-- Settles O27: the move that a step takes touches no CORE that it does not concern. -/
theorem instancesShareNoState : Obligations.InstancesShareNoState := by
  intro s t m rest k hagenda hk ht
  rw [step_cons hagenda] at ht
  have hk' : ¬ concerns { s with agenda := rest } k m := hk
  exact ((moved_of_stepMove ht).untouched hk').inst

/-! ## A CORE that waits -/

/-- CORE `k`, which was `c` in `s`, is `c` still in `t`, but for the requests held at its port (R118), and has shown no
event in between. -/
structure StillWaits (k : Nat) (c : Inst) (s t : State) : Prop where
  inst  : ∃ port, t.insts[k]? = some { c with port := port }
  shown : t.shown k = s.shown k

/-- No move of the list resets CORE `k`, or answers the call that it waits for while it is `c`. -/
structure Unanswered (k : Nat) (c : Inst) (moves : List Move) : Prop where
  reset  : .reset k ∉ moves
  answer : ∀ j n r, .answer j n r ∈ moves → waitsFor c j n = false

theorem Unanswered.tail {k : Nat} {c : Inst} {m : Move} {rest : List Move} (h : Unanswered k c (m :: rest)) :
    Unanswered k c rest :=
  ⟨fun hm => h.reset (List.mem_cons_of_mem m hm), fun j n r hm => h.answer j n r (List.mem_cons_of_mem m hm)⟩

section
variable {k : Nat} {c : Inst} {s t u : State}

theorem Untouched.stillWaits (h : Untouched k s t) (hc : s.insts[k]? = some c) : StillWaits k c s t :=
  ⟨⟨c.port, h.inst.trans hc⟩, h.shown⟩

theorem StillWaits.trans {port : List Request} (hst : StillWaits k c s t)
    (htu : StillWaits k { c with port := port } t u) : StillWaits k c s u :=
  ⟨htu.inst, htu.shown.trans hst.shown⟩

theorem not_idleAt_of_busy (hc : s.insts[k]? = some c) (hbusy : c.phase ≠ .idle) (c' : Inst) : ¬ IdleAt s k c' := by
  rintro ⟨hc', hidle⟩
  cases hc.symm.trans hc'
  exact hbusy hidle

/-- The answer that comes next to a call of CORE `k` is not the one that it waits for. -/
theorem Unanswered.not_waitsFor {j n i : Nat} {r : Reply} {rest : List Move} {q : Sink} {call : Call} {c' : Inst}
    (hmoves : Unanswered k c (.answer j n r :: rest)) (hc : s.insts[k]? = some c) (hcall : OpenCall s j n q call)
    (hk : concerns s k (.answer j n r)) (hwriter : call.writer = .core i) (hc' : s.insts[i]? = some c') :
    waitsFor c' j n ≠ true := by
  cases hwriter.symm.trans ((concerns_answer_iff hcall k r).mp hk)
  cases hc.symm.trans hc'
  exact Bool.eq_false_iff.mp (hmoves.answer j n r List.mem_cons_self)

/-- R109, R118: of the moves that concern a busy CORE, and are neither its reset nor the answer that it waits for, only
a request presented to it changes anything there. -/
theorem Moved.stillWaits_of_concerns {m : Move} {rest : List Move} (h : Moved s m t) (hk : concerns s k m)
    (hc : s.insts[k]? = some c) (hbusy : c.phase ≠ .idle) (hmoves : Unanswered k c (m :: rest)) :
    StillWaits k c s t := by
  cases h with
  | held => exact ⟨⟨c.port, hc⟩, rfl⟩
  | @presented i r c' hc' =>
    cases (hk : i = k)
    cases hc.symm.trans hc'
    exact ⟨⟨_, getElem?_set_of_some hc _⟩, rfl⟩
  | @wasReset i =>
    cases (hk : i = k)
    exact absurd List.mem_cons_self hmoves.reset
  | otherIssued => exact hk.elim
  | @ended i _ _ _ _ _ hidle =>
    cases (hk : i = k)
    exact absurd hidle (not_idleAt_of_busy hc hbusy _)
  | @headerIssued i _ _ _ _ hidle =>
    cases (hk : i = k)
    exact absurd hidle (not_idleAt_of_busy hc hbusy _)
  | unheard => exact ⟨⟨c.port, hc⟩, rfl⟩
  | answered hcall hwriter hc' hwaits => exact absurd hwaits (hmoves.not_waitsFor hc hcall hk hwriter hc')
  | payloadIssued hcall hwriter hc' hwaits => exact absurd hwaits (hmoves.not_waitsFor hc hcall hk hwriter hc')

/-- R109: a busy CORE goes on only by a reset or by the answer that it waits for. -/
theorem Moved.stillWaits {m : Move} {rest : List Move} (h : Moved s m t) (hc : s.insts[k]? = some c)
    (hbusy : c.phase ≠ .idle) (hmoves : Unanswered k c (m :: rest)) : StillWaits k c s t := by
  by_cases hk : concerns s k m
  · exact h.stillWaits_of_concerns hk hc hbusy hmoves
  · exact (h.untouched hk).stillWaits hc

/-- A move takes nothing off the agenda beside itself. -/
theorem Moved.agenda {m : Move} (h : Moved s m t) : t.agenda = s.agenda := by
  cases h with
  | otherIssued => exact receive_agenda ..
  | headerIssued => exact issueCall_agenda ..
  | payloadIssued => exact issueCall_agenda ..
  | held | presented | wasReset | ended | unheard | answered => rfl

/-- R109: one step of a system in which neither a reset nor the awaited answer is to come. -/
theorem step_stillWaits (hc : s.insts[k]? = some c) (hbusy : c.phase ≠ .idle) (hmoves : Unanswered k c s.agenda)
    (ht : step s = .next t) : StillWaits k c s t ∧ Unanswered k c t.agenda := by
  rcases step_cases ht with ⟨-, rfl⟩ | ⟨m, rest, hagenda, hmoved⟩
  · exact ⟨⟨⟨c.port, hc⟩, rfl⟩, hmoves⟩
  · rw [hagenda] at hmoves
    refine ⟨?_, hmoved.agenda ▸ hmoves.tail⟩
    have hwaits : StillWaits k c { s with agenda := rest } t := hmoved.stillWaits hc hbusy hmoves
    exact ⟨hwaits.inst, hwaits.shown⟩

/-- R109: and so it is over any number of steps. -/
theorem steps_stillWaits {n : Nat} (hc : s.insts[k]? = some c) (hbusy : c.phase ≠ .idle)
    (hmoves : Unanswered k c s.agenda) (ht : steps n s = .next t) : StillWaits k c s t := by
  induction n generalizing s c with
  | zero =>
    cases ht
    exact ⟨⟨c.port, hc⟩, rfl⟩
  | succ n ih =>
    obtain ⟨u, hu, ht⟩ := steps_succ_next ht
    obtain ⟨hwaits, hrest⟩ := step_stillWaits hc hbusy hmoves hu
    obtain ⟨port, hport⟩ := hwaits.inst
    have hrest' : Unanswered k { c with port := port } u.agenda := ⟨hrest.reset, hrest.answer⟩
    exact hwaits.trans (ih hport hbusy hrest' ht)

end

/-- Settles O36, by induction on the steps: a CORE that shows no event neither responds nor accepts. -/
theorem unansweredInstanceWaitsForEver : Obligations.UnansweredInstanceWaitsForEver := by
  intro n s t k c cur hc hbusy hcur hreset hanswer ht
  have hmoves : Unanswered k c s.agenda := by
    refine ⟨hreset, fun j m r hm => Bool.eq_false_iff.mpr fun hwaits => ?_⟩
    obtain ⟨hserved, -, cur', hcur', rfl⟩ := waitsFor_iff.mp hwaits
    cases hcur.symm.trans hcur'
    exact hanswer j r hserved hm
  obtain ⟨⟨port, hport⟩, hshown⟩ := steps_stillWaits hc hbusy hmoves ht
  refine ⟨⟨_, hport, rfl, hcur⟩, ?_, ?_⟩
  · rw [responded_eq_shown, hshown, responded_eq_shown]
  · rw [accepted_eq_shown, hshown, accepted_eq_shown]

end Sys2Proof.Machine
end

section
/-! PROOFS. A negative length (R94): each of the four operations ends in its acceptance step, and writes nothing. -/
namespace Sys2Proof.Machine

section
variable {s : State} {c : Inst} {h : Header} (hc : IdleAt s s.turn c) (hr : h.rsv ≤ 7) (hlen : h.len.toInt < 0)
include hc hr hlen

/-- R72: SIZE has no size to answer. -/
theorem exec_size_of_neg : exec (.size h) s = .next (finish s.turn c invalidLengthResponse s) := by
  rw [exec_size_of_idleAt hc hr, sizeAnswer_of_neg hlen, errorResponse_invalidLength]

/-- R84: ENCODE has no header to answer, and draws no HBUF (log entry 5). -/
theorem exec_encode_of_neg : exec (.encode h) s = .next (finish s.turn c invalidLengthResponse s) := by
  have hrun : exec (.encode h) s = _ := accepting_idle hc hr
  rw [hrun, encodeHeader_negative (d := descOf h) _ hlen, ← errorResponse_invalidLength]
  rfl

/-- R87: WRITE_FRAME has no header to issue. -/
theorem exec_writeFrame_of_neg (p : List Byte) :
    exec (.writeFrame h p) s = .next (finish s.turn c invalidLengthResponse s) := by
  rw [exec_writeFrame_of_idleAt hc hr, startWrite_of_none (encodeHeader_negative (d := descOf h) _ hlen),
    errorResponse_invalidLength]

end

/-- Settles O20: the INVALID_LENGTH end of each operation. -/
theorem negativeLengthWritesNothing : Obligations.NegativeLengthWritesNothing := by
  intro s c i hc hr hlen
  cases i with
  | size h => exact exec_size_of_neg hc hr hlen
  | encode h => exact exec_encode_of_neg hc hr hlen
  | writeHeader h => exact exec_writeHeader_of_neg hc hr hlen
  | writeFrame h p => exact exec_writeFrame_of_neg hc hr hlen p

end Sys2Proof.Machine
end

section
/-! PROOFS. An `Inst` that accepts nothing (R60, R118, R119): a busy one holds what is presented, and an IDLE one refuses
an RSV above 7. Both are read off `accepting`, with which every command begins. -/
namespace Sys2Proof.Machine

/-- R60: every command is its acceptance, and with another opcode it differs in the header description alone. -/
theorem exec_eq_accepting (i : Instr) (s : State) : ∃ run, exec i s = accepting s i.header run ∧
    ∀ opc, exec (withOpc opc i) s = accepting s { i.header with opc := opc } run := by
  cases i with
  | size h => exact ⟨_, rfl, fun _ => rfl⟩
  | encode h => exact ⟨_, rfl, fun _ => rfl⟩
  | writeHeader h => exact ⟨_, rfl, fun _ => rfl⟩
  | writeFrame h p => exact ⟨_, rfl, fun _ => rfl⟩

/-! ## A busy `Inst` -/

/-- R14: the ready indication is the phase IDLE. -/
theorem ready_iff {c : Inst} : c.ready = true ↔ c.phase = .idle := decide_eq_true_iff

/-- R118: a busy `Inst` takes nothing from its port, whether or not something is presented there. -/
theorem fetch_of_busy {s : State} {k : Nat} {c : Inst} (hc : s.insts[k]? = some c) (hbusy : c.phase ≠ .idle) :
    fetch k s = .held := by
  have hready : ¬ c.ready = true := fun h => hbusy (ready_iff.mp h)
  cases hport : c.port with
  | nil => simp [fetch, hc, hport]
  | cons r rest => simp [fetch, hc, hport, hready]

/-- Settles O21: acceptance at a busy `Inst` changes nothing, and the acceptance move finds the command held. -/
theorem busyInstanceHoldsTheCommand : Obligations.BusyInstanceHoldsTheCommand := by
  intro s c i k rest
  refine ⟨ready_iff, fun hbusy hc => ?_, fun hbusy hc hagenda => ?_⟩
  · obtain ⟨run, hexec, -⟩ := exec_eq_accepting i s
    rw [hexec]
    exact accepting_busy hc hbusy
  · have hheld : fetch k { s with agenda := rest } = .held := fetch_of_busy hc hbusy
    rw [step_cons hagenda]
    simp only [stepMove, stepAccept, hheld]

/-! ## Fields out of range -/

/-- R119: an IDLE `Inst` refuses a header description whose RSV is out of range. -/
theorem accepting_of_rsv_gt {s : State} {h : Header} {c : Inst} {run : Inst → Desc → Result}
    (hc : IdleAt s s.turn c) (hr : 7 < h.rsv) : accepting s h run = .refused .rsvOutOfRange := by
  simp [accepting, hc.1, hc.2, latchDesc_of_gt hr]

/-- R119: OPC modulo 16 gives the same OPC field of DESC. -/
theorem latchDesc_opc_mod (h : Header) : latchDesc { h with opc := h.opc % 16 } = latchDesc h := by
  have hopc : BitVec.ofNat 4 (h.opc % 16) = BitVec.ofNat 4 h.opc := by
    apply BitVec.eq_of_toNat_eq
    simp
  simp only [latchDesc, hopc]

/-- Acceptance reads the header description only through the descriptor that it latches. -/
theorem accepting_congr {h h' : Header} (hdesc : latchDesc h = latchDesc h') (s : State)
    (run : Inst → Desc → Result) : accepting s h run = accepting s h' run := by
  simp only [accepting, hdesc]

/-- R59: OPC of a command word is in range. -/
theorem cmdHeader_opc_le (w : CmdWord) : (cmdHeader w).opc ≤ 15 :=
  Nat.le_of_lt_succ (BitVec.isLt _)

/-- Settles O22: what acceptance does with the two integer fields, and the widths of the fields of a word. -/
theorem integerFieldRanges : Obligations.IntegerFieldRanges := by
  intro s c i hc
  obtain ⟨run, hexec, hopc⟩ := exec_eq_accepting i s
  refine ⟨fun hr => ?_, ?_, fun w p => ?_⟩
  · rw [hexec]
    exact accepting_of_rsv_gt hc hr
  · rw [hopc, hexec]
    exact accepting_congr (latchDesc_opc_mod i.header) s run
  · rw [decode_header]
    exact ⟨cmdHeader_rsv_le w, cmdHeader_opc_le w⟩

end Sys2Proof.Machine
end

section
/-! PROOFS. Reset (R26, R29, R110, R111), and a system with no move to come (R109, R112). The call that a reset abandons
is not awaited, and no step makes it awaited: what an `Inst` newly waits for is a call placed behind all that the sink has
received. -/
namespace Sys2Proof.Machine

/-! ## No move to come -/

/-- Log entry 7: with no move to come a step changes nothing. -/
theorem step_of_no_move {s : State} (hagenda : s.agenda = []) : step s = .next s := by
  simp only [step, hagenda]

theorem steps_of_no_move {s : State} (hagenda : s.agenda = []) (n : Nat) : steps n s = .next s := by
  induction n with
  | zero => rfl
  | succ n ih => rw [steps_succ (step_of_no_move hagenda), ih]

/-- Settles O38: one step, and so any number of them. -/
theorem nothingMovesOnAnEmptyAgenda : Obligations.NothingMovesOnAnEmptyAgenda :=
  fun _ n hagenda => ⟨step_of_no_move hagenda, steps_of_no_move hagenda n⟩

/-! ## The reset -/

/-- R110: the step of a reset move. -/
theorem step_reset {s : State} {rest : List Move} {k : Nat} {c : Inst} (hagenda : s.agenda = .reset k :: rest)
    (hc : s.insts[k]? = some c) : step s = .next { s with agenda := rest, insts := s.insts.set k c.toIdle } := by
  rw [step_cons hagenda]
  simp only [stepMove, resetInst, hc]
  rfl

/-- Settles O33: the step of the reset move, with the `Inst` that it leaves written out. -/
theorem resetLeavesTheInstanceIdle : Obligations.ResetLeavesTheInstanceIdle :=
  fun _ _ _ _ hagenda hc => step_reset hagenda hc

/-! ## What a CORE can wait for after a step -/

/-- The place that the next call gets is the length of the WLOG, also of a sink that is not there. -/
theorem nextCall_eq_length {c : Inst} {j : Nat} (hserved : c.sink = some j) (s : State) :
    nextCall c s = (s.wlogOf j).length := by
  cases hq : s.sinks[j]? <;> simp [nextCall, State.wlogOf, hserved, hq]

/-- R26: a WLOG gets no shorter. -/
theorem SinksGrow.wlogOf_length_le {s t : State} (h : SinksGrow s.sinks t.sinks) (j : Nat) :
    (s.wlogOf j).length ≤ (t.wlogOf j).length := by
  unfold State.wlogOf
  rcases h j with ⟨hs, ht⟩ | ⟨q, q', hs, ht, hgrows⟩
  · simp [hs, ht]
  · simp only [hs, ht, Option.map_some, Option.getD_some]
    refine Nat.le_of_not_lt fun hlt => ?_
    obtain ⟨call, hcall, -⟩ := hgrows.wlog _ _ (List.getElem?_eq_getElem hlt)
    exact absurd (List.getElem?_eq_some_iff.mp hcall).1 (Nat.lt_irrefl _)

/-- What stands at a place just after an entry was put there is that entry. -/
theorem eq_of_getElem?_set_self {α : Type} {l : List α} {i : Nat} {a b : α} (h : (l.set i a)[i]? = some b) : b = a := by
  simp only [List.getElem?_set_self', Option.map_eq_map, Option.map_eq_some_iff] at h
  obtain ⟨_, -, rfl⟩ := h
  rfl

section
variable {k j n : Nat} {c c' : Inst} {s t : State}

/-- A CORE whose command has ended, or was abandoned, waits for no answer. -/
theorem not_waitsFor_of_set_toIdle (hc' : (s.insts.set k c.toIdle)[k]? = some c') : waitsFor c' j n = false := by
  cases eq_of_getElem?_set_self hc'
  exact waitsFor_idle rfl

/-- R35: a CORE that has issued a call waits for that one, and for none that the sink had received before. -/
theorem not_waitsFor_of_issueCall {p : Phase} {cur : Cur} (hn : n < (s.wlogOf j).length)
    (hc' : (issueCall k c p cur s).insts[k]? = some c') : waitsFor c' j n = false := by
  rw [issueCall_insts] at hc'
  cases eq_of_getElem?_set_self hc'
  refine Bool.eq_false_iff.mpr fun hwaits => ?_
  obtain ⟨hserved, -, _, hcur, hcall⟩ := waitsFor_iff.mp hwaits
  cases hcur
  have hnew : (s.wlogOf j).length = n := (nextCall_eq_length hserved s).symm.trans hcall
  omega

/-- A CORE that a move concerns does not come to wait for a call that it did not await before: it is as it was, or its
command has ended, or it waits for the call that it has just issued. -/
theorem Moved.not_waitsFor_of_concerns {m : Move} (h : Moved s m t) (hk : concerns s k m) (hs : NotAwaited s k j n)
    (hc' : t.insts[k]? = some c') : waitsFor c' j n = false := by
  obtain ⟨hn, hnone⟩ := hs
  cases h with
  | held => exact hnone c' hc'
  | @presented i _ c hc =>
    cases (hk : i = k)
    cases eq_of_getElem?_set_self hc'
    exact hnone c hc
  | @wasReset i =>
    cases (hk : i = k)
    exact not_waitsFor_of_set_toIdle hc'
  | otherIssued => exact hk.elim
  | @ended i =>
    cases (hk : i = k)
    exact not_waitsFor_of_set_toIdle hc'
  | @headerIssued i c req port =>
    cases (hk : i = k)
    have hn' : n < ((taken k c req port (s.draws + 1) s).wlogOf j).length := hn
    exact not_waitsFor_of_issueCall hn' hc'
  | unheard => exact hnone c' hc'
  | answered hcall hwriter =>
    cases hwriter.symm.trans ((concerns_answer_iff hcall k _).mp hk)
    exact not_waitsFor_of_set_toIdle hc'
  | @payloadIssued i m r q call _ _ _ hcall hwriter =>
    cases hwriter.symm.trans ((concerns_answer_iff hcall k r).mp hk)
    have hgrow : SinksGrow s.sinks (heard k i m q call r s).sinks := .set hcall.sinkAt (.settled hcall r)
    exact not_waitsFor_of_issueCall (hn.trans_le (SinksGrow.wlogOf_length_le hgrow j)) hc'

/-- R111: no move makes an earlier call awaited, whichever CORE it concerns. -/
theorem Moved.notAwaited {m : Move} (h : Moved s m t) (hs : NotAwaited s k j n) : NotAwaited t k j n := by
  refine ⟨hs.1.trans_le (SinksGrow.wlogOf_length_le h.sinksGrow j), fun c' hc' => ?_⟩
  by_cases hk : concerns s k m
  · exact h.not_waitsFor_of_concerns hk hs hc'
  · exact hs.2 c' ((h.untouched hk).inst ▸ hc')

/-- R111: a call that is not awaited is not awaited after a step. -/
theorem step_notAwaited (hs : NotAwaited s k j n) (ht : step s = .next t) : NotAwaited t k j n := by
  rcases step_cases ht with ⟨-, rfl⟩ | ⟨m, rest, -, hmoved⟩
  · exact hs
  · exact hmoved.notAwaited hs

/-- R111: nor after any number of steps. -/
theorem steps_notAwaited {m : Nat} (hs : NotAwaited s k j n) (ht : steps m s = .next t) : NotAwaited t k j n := by
  induction m generalizing s with
  | zero =>
    cases ht
    exact hs
  | succ m ih =>
    obtain ⟨u, hu, ht⟩ := steps_succ_next ht
    exact ih (step_notAwaited hs hu) ht

/-! ## The abandoned call -/

/-- R111: the reset of a waiting CORE leaves the call at its sink, and that CORE waits for its answer no longer. -/
theorem WaitingAt.notAwaited_of_reset {cur : Cur} {q : Sink} (hwait : WaitingAt s k j c cur q) (rest : List Move) :
    NotAwaited { s with agenda := rest, insts := s.insts.set k c.toIdle } k j cur.call := by
  refine ⟨?_, fun c' hc' => not_waitsFor_of_set_toIdle hc'⟩
  obtain ⟨hlt, -⟩ := List.getElem?_eq_some_iff.mp hwait.callAt
  simpa [State.wlogOf, hwait.sinkAt] using hlt

/-- R111: an answer to a call that is not awaited settles the call at the sink, and does nothing else. -/
theorem sinkAnswer_of_notAwaited {q : Sink} {call : Call} (hcall : OpenCall s j n q call)
    (hwriter : call.writer = .core k) (hs : NotAwaited s k j n) (r : Reply) :
    sinkAnswer j n r s = .next (s.setSink j (settled q n call r)) := by
  have hunheard := deliverAnswer_notAwaited (r := r.seen) (s := s.setSink j (settled q n call r)) hs.2
  rw [sinkAnswer_of_openCall hcall, hwriter, hunheard]

end

/-- Settles O34: the reset leaves the call not awaited, every step keeps it so, and an answer to such a call reaches no
CORE. -/
theorem resetAbandonsTheCommand : Obligations.ResetAbandonsTheCommand := by
  refine ⟨fun s rest k j c cur q hagenda hwait _ => ?_, fun s rest k j n q call r hagenda hs hq hn hwriter hopen => ?_⟩
  · have hreset := step_reset hagenda hwait.instAt
    refine ⟨hreset, fun m t ht => ?_⟩
    rw [steps_succ hreset] at ht
    exact steps_notAwaited (hwait.notAwaited_of_reset rest) ht
  · have hcall : OpenCall { s with agenda := rest } j n q call := ⟨hq, hn, hopen⟩
    rw [step_cons hagenda]
    exact sinkAnswer_of_notAwaited hcall hwriter hs r

end Sys2Proof.Machine
end
